-- ==== Sys2Proof/Word.lean ====
section
/-! DEFINITION. The word types of the block (00_scope.md R9): a byte, a 16-bit value, a 32-bit field slot; and the names the
encodings speak of: sequencer states and kinds. -/

namespace Sys2Proof

/-- A byte: 8 bits, unsigned (00_scope.md R9). -/
abbrev Byte := BitVec 8

/-- A 16-bit value: a `u16` field (44_unpack_dispatch.md R192), the index on the read port (10_state.md R40). -/
abbrev Half := BitVec 16

/-- One slot of the field bus, and the pattern of a `u32` or `i32` field (44_unpack_dispatch.md R201). -/
abbrev Word := BitVec 32

/-- `st`: progress through one frame, exactly nine values in the source's order (10_state.md R28).
The codes 9 to 15 of the 4-bit field name no state, so no value of this type stands for them (10_state.md R31). -/
inductive SeqState
  | idle
  | sawSync1
  | sawSync2
  | haveClass
  | haveId
  | haveLengthLow
  | haveLengthHigh
  | havePayload
  | haveChecksumA
deriving DecidableEq, Repr

/-- Which schema a delivered frame is decoded with (10_state.md R42, 44_unpack_dispatch.md R196). -/
inductive Kind
  | position
  | dop
  | velocity
  | status
  | unhandled
deriving DecidableEq, Repr

end Sys2Proof
end

