-- ==== Sys2Proof/Config.lean ====
section
/-! DEFINITION. The static configuration: the parameters of 00_scope.md R5, the types whose widths are parameters, and the
schema table of 44_unpack_dispatch.md R198. It is fixed when the block is built and is no part of the state (00_scope.md R13,
10_state.md R33). And the free value the model needs. -/

namespace Sys2Proof

/-- The parameters of 00_scope.md R5, each a field. -/
structure Config where
  sync1 : Byte
  sync2 : Byte
  cap   : Nat
  lenW  : Nat
  cntW  : Nat
  stW   : Nat
  kindW : Nat
  nslot : Nat
deriving DecidableEq, Repr

/-- The values this hardware takes (00_scope.md R5). -/
@[reducible] def Config.hardware : Config where
  sync1 := 0xB5
  sync2 := 0x62
  cap := 1000
  lenW := 16
  cntW := 16
  stW := 4
  kindW := 3
  nslot := 9

@[simp] theorem Config.hardware_sync1 : Config.hardware.sync1 = 0xB5 := rfl
@[simp] theorem Config.hardware_sync2 : Config.hardware.sync2 = 0x62 := rfl
@[simp] theorem Config.hardware_cap : Config.hardware.cap = 1000 := rfl
@[simp] theorem Config.hardware_lenW : Config.hardware.lenW = 16 := rfl
@[simp] theorem Config.hardware_cntW : Config.hardware.cntW = 16 := rfl
@[simp] theorem Config.hardware_stW : Config.hardware.stW = 4 := rfl
@[simp] theorem Config.hardware_kindW : Config.hardware.kindW = 3 := rfl
@[simp] theorem Config.hardware_nslot : Config.hardware.nslot = 9 := rfl

/-- A configuration of this machine: the bounds on the capacity (00_scope.md R6), and the widths that shape the types below,
which are this hardware's (log 11). The operations take the sync bytes and the capacity from the configuration they are given. -/
abbrev Config.wf (c : Config) : Prop :=
  36 ≤ c.cap ∧ c.cap ≤ 65535 ∧ c.lenW = Config.hardware.lenW ∧ c.cntW = Config.hardware.cntW ∧
  c.stW = Config.hardware.stW ∧ c.kindW = Config.hardware.kindW ∧ c.nslot = Config.hardware.nslot

/-- `len`, of width `LEN_W` (10_state.md R23). -/
abbrev LenReg := BitVec Config.hardware.lenW

/-- `cnt`, of width `CNT_W` (10_state.md R24). -/
abbrev CntReg := BitVec Config.hardware.cntW

/-- The code of `st`, of width `ST_W` (10_state.md R29). -/
abbrev StCode := BitVec Config.hardware.stW

/-- The code of a kind, of width `KIND_W` (10_state.md R42). -/
abbrev KindCode := BitVec Config.hardware.kindW

/-- The field bus, of `NSLOT` slots (44_unpack_dispatch.md R201). -/
abbrev FieldBus := Vector Word Config.hardware.nslot

/-- FREE VALUE (log 8): the byte of a record at an index where the buffer has no cell. The spec states none; only a record
longer than the buffer would hold one, and no reachable state puts out such a record (10_state.md R38). -/
opaque Config.absentByte : Nat → Byte

/-- The type column of the schema table (44_unpack_dispatch.md R198). -/
inductive FieldType
  | u16
  | u32
  | i32
deriving DecidableEq, Repr

/-- Bytes a field of this type reads: "a width (2 or 4 bytes)" (44_unpack_dispatch.md R190). -/
def FieldType.width : FieldType → Nat
  | .u16 => 2
  | .u32 => 4
  | .i32 => 4

/-- One row of the schema table; the slot is the row's position in its list (44_unpack_dispatch.md R198). -/
structure FieldSpec where
  name   : String
  ty     : FieldType
  offset : Nat
deriving DecidableEq, Repr

/-- The schema table (44_unpack_dispatch.md R198): the fields of each kind, in slot order. -/
def Config.schema : Kind → List FieldSpec
  | .position =>
      [⟨"iTOW", .u32, 0⟩, ⟨"lon", .i32, 4⟩, ⟨"lat", .i32, 8⟩, ⟨"height", .i32, 12⟩, ⟨"heightMSL", .i32, 16⟩,
       ⟨"hAcc", .u32, 20⟩, ⟨"vAcc", .u32, 24⟩]
  | .dop =>
      [⟨"iTOW", .u32, 0⟩, ⟨"gDOP", .u16, 4⟩, ⟨"pDOP", .u16, 6⟩, ⟨"tDOP", .u16, 8⟩, ⟨"vDOP", .u16, 10⟩,
       ⟨"hDOP", .u16, 12⟩, ⟨"nDOP", .u16, 14⟩, ⟨"eDOP", .u16, 16⟩]
  | .velocity =>
      [⟨"iTOW", .u32, 0⟩, ⟨"velN", .i32, 4⟩, ⟨"velE", .i32, 8⟩, ⟨"velD", .i32, 12⟩, ⟨"speed", .u32, 16⟩,
       ⟨"groundSpeed", .u32, 20⟩, ⟨"heading", .i32, 24⟩, ⟨"speedAcc", .u32, 28⟩, ⟨"headingAcc", .u32, 32⟩]
  | .status => [⟨"iTOW", .u32, 0⟩]
  | .unhandled => []

/-- The `need` column of 44_unpack_dispatch.md R198: payload bytes the schema reads, `max(offset + width)`. -/
def Config.need (k : Kind) : Nat :=
  (Config.schema k).foldl (fun n f => max n (f.offset + f.ty.width)) 0

end Sys2Proof
end

