-- ==== Sys2Proof/Syntax.lean ====
section
/-! DEFINITION. The instructions: one constructor per row of spec/opcode_table.json. -/

namespace Sys2Proof

/-- The block's operations. The first eleven are the rows of format `SB` (30_encoding.md R84), the last five the rows of
format `ID` (R85). IGNORE has two rows, one per state in which it occurs (R92), hence two constructors.
Only the operations whose row has a `byte` field carry an operand. -/
inductive Instr
  | resync
  | sync2
  | ignoreIdle
  | ignoreSync1
  | cls (b : Byte)
  | ident (b : Byte)
  | lenlo (b : Byte)
  | lenhi (b : Byte)
  | payload (b : Byte)
  | cka (b : Byte)
  | ckb (b : Byte)
  | decPosition
  | decDop
  | decVelocity
  | decStatus
  | decUnhandled
deriving DecidableEq, Repr

end Sys2Proof
end

