-- ==== Sys2Proof/WellFormed.lean ====
section
/-! DEFINITION. Well-formed instructions: the operand byte of an operation is never the first sync byte, since a step with
that byte is RESYNC in every state (30_encoding.md R86, 40_sync.md R114). -/

namespace Sys2Proof

/-- A byte the operand field of a priority-2 row can hold: every value but `SYNC1` (30_encoding.md R90, "byte not `0xB5`", for this hardware). -/
def operandOk (c : Config) (b : Byte) : Bool := b != c.sync1

/-- The check on an instruction: its operand byte, where it has one, is not `SYNC1`. -/
def Instr.wellFormed (c : Config) : Instr → Bool
  | .resync => true
  | .sync2 => true
  | .ignoreIdle => true
  | .ignoreSync1 => true
  | .cls b => operandOk c b
  | .ident b => operandOk c b
  | .lenlo b => operandOk c b
  | .lenhi b => operandOk c b
  | .payload b => operandOk c b
  | .cka b => operandOk c b
  | .ckb b => operandOk c b
  | .decPosition => true
  | .decDop => true
  | .decVelocity => true
  | .decStatus => true
  | .decUnhandled => true

end Sys2Proof
end

