-- ==== Sys2Proof/Decode.lean ====
section
/-! DEFINITION. The selectors (30_encoding.md R83 to R86), the opcode table as rows of match, mask and priority (R90 to R92), the
decoder over it, and the encoder. -/

namespace Sys2Proof

/-- The binary code of `st`, a field of `ST_W` bits (10_state.md R29). -/
def SeqState.code : SeqState → StCode
  | .idle => 0
  | .sawSync1 => 1
  | .sawSync2 => 2
  | .haveClass => 3
  | .haveId => 4
  | .haveLengthLow => 5
  | .haveLengthHigh => 6
  | .havePayload => 7
  | .haveChecksumA => 8

/-- The state a code names; the codes 9 to 15 name none (10_state.md R31). -/
def SeqState.ofCode (c : StCode) : Option SeqState :=
  match c.toNat with
  | 0 => some .idle
  | 1 => some .sawSync1
  | 2 => some .sawSync2
  | 3 => some .haveClass
  | 4 => some .haveId
  | 5 => some .haveLengthLow
  | 6 => some .haveLengthHigh
  | 7 => some .havePayload
  | 8 => some .haveChecksumA
  | _ => none

/-- How a gate-level state register reads: a code that names no state behaves as `Idle` (30_encoding.md R95, the spec's
own decision D9). -/
def SeqState.ofGateCode (c : StCode) : SeqState :=
  (SeqState.ofCode c).getD .idle

/-- `SB[11:0] = st_code ‖ b` (30_encoding.md R83). -/
def selectorSB (st : SeqState) (b : Byte) : BitVec 12 := st.code ++ b

/-- The `state` field, bits 11:8 (30_encoding.md R84). -/
def stateField (sel : BitVec 12) : StCode := sel.extractLsb' 8 4

/-- The `byte` field, bits 7:0 (30_encoding.md R84). -/
def byteField (sel : BitVec 12) : Byte := sel.extractLsb' 0 8

/-- Why a selector is no encoding. -/
inductive DecodeError
  /-- The `state` field holds a code 9 to 15, which names no state (10_state.md R31, 30_encoding.md R90). -/
  | noSuchState (code : StCode)
  /-- No row of the format matches. By 30_encoding.md R90 and R91 this never happens. -/
  | noMatchingRow
  /-- Bits 15:12 of a two-byte selector are not zero: a selector of format SB has 12 bits (30_encoding.md R83). -/
  | bitsAboveSelector
  /-- Neither one byte (format ID) nor two bytes (format SB). -/
  | noSuchFormat
deriving DecidableEq, Repr

/-- Names of the table's 16 rows (30_encoding.md R92). -/
inductive Op
  | resync
  | sync2
  | ignoreIdle
  | ignoreSync1
  | cls
  | ident
  | lenlo
  | lenhi
  | payload
  | cka
  | ckb
  | decPosition
  | decDop
  | decVelocity
  | decStatus
  | decUnhandled
deriving DecidableEq, Repr

/-- The instruction a row gives, with the selector's `byte` field as operand where the row has one. -/
def Op.instr : Op → Byte → Instr
  | .resync, _ => .resync
  | .sync2, _ => .sync2
  | .ignoreIdle, _ => .ignoreIdle
  | .ignoreSync1, _ => .ignoreSync1
  | .cls, b => .cls b
  | .ident, b => .ident b
  | .lenlo, b => .lenlo b
  | .lenhi, b => .lenhi b
  | .payload, b => .payload b
  | .cka, b => .cka b
  | .ckb, b => .ckb b
  | .decPosition, _ => .decPosition
  | .decDop, _ => .decDop
  | .decVelocity, _ => .decVelocity
  | .decStatus, _ => .decStatus
  | .decUnhandled, _ => .decUnhandled

/-- One row of the opcode table over a selector of `w` bits (30_encoding.md R92). -/
structure Row (w : Nat) where
  op       : Op
  pat      : BitVec w
  mask     : BitVec w
  priority : Nat
deriving DecidableEq, Repr

/-- `selector & mask == match` (30_encoding.md R86). -/
def Row.hits {w : Nat} (r : Row w) (sel : BitVec w) : Bool := (sel &&& r.mask) == r.pat

/-- The rows of format SB in the table's order. The two sync patterns are the parameters `SYNC1` and `SYNC2`. -/
def sbRows (c : Config) : List (Row 12) :=
  [⟨.resync,      0#4 ++ c.sync1, 0x0FF, 0⟩,
   ⟨.sync2,       1#4 ++ c.sync2, 0xFFF, 1⟩,
   ⟨.ignoreIdle,  0x000, 0xF00, 2⟩,
   ⟨.ignoreSync1, 0x100, 0xF00, 2⟩,
   ⟨.cls,         0x200, 0xF00, 2⟩,
   ⟨.ident,       0x300, 0xF00, 2⟩,
   ⟨.lenlo,       0x400, 0xF00, 2⟩,
   ⟨.lenhi,       0x500, 0xF00, 2⟩,
   ⟨.payload,     0x600, 0xF00, 2⟩,
   ⟨.cka,         0x700, 0xF00, 2⟩,
   ⟨.ckb,         0x800, 0xF00, 2⟩]

/-- The rows of format ID in the table's order. -/
def idRows : List (Row 8) :=
  [⟨.decPosition,  0x02, 0xFF, 0⟩,
   ⟨.decDop,       0x04, 0xFF, 0⟩,
   ⟨.decVelocity,  0x12, 0xFF, 0⟩,
   ⟨.decStatus,    0x06, 0xFF, 0⟩,
   ⟨.decUnhandled, 0x00, 0x00, 1⟩]

/-- Among the rows that match, the one of the lowest priority number (30_encoding.md R86). -/
def selectRow {w : Nat} : List (Row w) → BitVec w → Option (Row w)
  | [], _ => none
  | r :: rs, sel =>
    match selectRow rs sel with
    | none => if r.hits sel then some r else none
    | some q => if r.hits sel && r.priority ≤ q.priority then some r else some q

/-- The operation of a step: the decode of a selector of format SB (30_encoding.md R83, R86, R90). -/
def decodeSB (c : Config) (sel : BitVec 12) : Except DecodeError Instr :=
  match SeqState.ofCode (stateField sel) with
  | none => .error (.noSuchState (stateField sel))
  | some _ =>
    match selectRow (sbRows c) sel with
    | none => .error .noMatchingRow
    | some r => .ok (r.op.instr (byteField sel))

/-- The kind decode of an id: the decode of a selector of format ID (30_encoding.md R85, R91). -/
def decodeID (sel : BitVec 8) : Except DecodeError Instr :=
  match selectRow idRows sel with
  | none => .error .noMatchingRow
  | some r => .ok (r.op.instr sel)

/-- A selector of either format (30_encoding.md R84, R85). -/
inductive Selector
  | sb (sel : BitVec 12)
  | id (sel : BitVec 8)
deriving DecidableEq, Repr

def decodeSelector (c : Config) : Selector → Except DecodeError Instr
  | .sb sel => decodeSB c sel
  | .id sel => decodeID sel

/-- A selector laid out as bytes, lowest bits first: one byte for format ID, two for format SB (the byte, then the state
code). DESIGN CHOICE (log 15): a selector is a bundle of wires and is stored nowhere. -/
def Selector.bytes : Selector → List Byte
  | .id sel => [sel]
  | .sb sel => [byteField sel, 0#4 ++ stateField sel]

/-- The decoder over bytes: total, each rejection by name. -/
def decodeBytes (c : Config) : List Byte → Except DecodeError Instr
  | [i] => decodeID i
  | [lo, hi] =>
    if hi.extractLsb' 4 4 = 0 then decodeSB c (hi.extractLsb' 0 4 ++ lo) else .error .bitsAboveSelector
  | [] => .error .noSuchFormat
  | _ :: _ :: _ :: _ => .error .noSuchFormat

/-- The selector of a well-formed instruction. Where the table leaves a bit of the row open (the state of RESYNC, the byte of
IGNORE, the id of DEC_UNHANDLED) the encoder takes the row's `match` value. DESIGN CHOICE (log 10). -/
def encode (c : Config) : Instr → Selector
  | .resync => .sb (0#4 ++ c.sync1)
  | .sync2 => .sb (1#4 ++ c.sync2)
  | .ignoreIdle => .sb 0x000
  | .ignoreSync1 => .sb 0x100
  | .cls b => .sb (2#4 ++ b)
  | .ident b => .sb (3#4 ++ b)
  | .lenlo b => .sb (4#4 ++ b)
  | .lenhi b => .sb (5#4 ++ b)
  | .payload b => .sb (6#4 ++ b)
  | .cka b => .sb (7#4 ++ b)
  | .ckb b => .sb (8#4 ++ b)
  | .decPosition => .id 0x02
  | .decDop => .id 0x04
  | .decVelocity => .id 0x12
  | .decStatus => .id 0x06
  | .decUnhandled => .id 0x00

/-- The row's name of an instruction. -/
def Instr.op : Instr → Op
  | .resync => .resync
  | .sync2 => .sync2
  | .ignoreIdle => .ignoreIdle
  | .ignoreSync1 => .ignoreSync1
  | .cls _ => .cls
  | .ident _ => .ident
  | .lenlo _ => .lenlo
  | .lenhi _ => .lenhi
  | .payload _ => .payload
  | .cka _ => .cka
  | .ckb _ => .ckb
  | .decPosition => .decPosition
  | .decDop => .decDop
  | .decVelocity => .decVelocity
  | .decStatus => .decStatus
  | .decUnhandled => .decUnhandled

/-- The bytes of a table word, lowest first. A row of at most 8 bits is an id, a wider one a selector of format SB. -/
def tableWordBytes (nbits w : Nat) : List Byte :=
  if nbits ≤ 8 then [BitVec.ofNat 8 w] else [BitVec.ofNat 8 w, BitVec.ofNat 8 (w / 256)]

/-- What the decoder reads from a word numbered as the opcode table numbers it; a width no row has is refused. -/
def decodeTableWord (nbits w : Nat) : Option Instr :=
  if nbits = 8 ∨ nbits = 12 ∨ nbits = 16 then
    match decodeBytes Config.hardware (tableWordBytes nbits w) with
    | .ok i => some i
    | .error _ => none
  else none

end Sys2Proof
end

