-- ==== Sys2Proof/Machine/State.lean ====
section
/-! DEFINITION. The machine's state as plain data (10_state.md R20), the records of a step's input and output, the reasons a
step can stop, and the state after reset. -/

namespace Sys2Proof.Machine

/-- The payload buffer: (index, byte) pairs, indices strictly rising, no pair equal to what an unlisted index reads as
(`Memory.wf`, Machine/Ops.lean). 10_state.md R34. -/
abbrev Memory := List Host.Cell

/-- What a reset leaves in everything but `st`: unspecified values, "a free argument (a draw)" (10_state.md R45). FREE VALUE:
plain data that arrives with the reset edge and that nothing constrains (log 5). -/
structure Draw where
  cls   : Byte
  id    : Byte
  len   : LenReg
  cnt   : CntReg
  ckA   : Byte
  ckB   : Byte
  cells : List Host.Cell
deriving DecidableEq, Repr

/-- The draw with every value zero: "a simulator may take zeros" (10_state.md R45). -/
def Draw.zero : Draw := ⟨0, 0, 0, 0, 0, 0, []⟩

/-- The inputs at one clock edge (10_state.md R39), with the draw a reset at this edge would leave. -/
structure Edge where
  rst     : Bool
  inValid : Bool
  inByte  : Byte
  draw    : Draw
deriving DecidableEq, Repr

/-- The fields of POSITION (44_unpack_dispatch.md R204): `u32` as its 32-bit value, `i32` as an integer. -/
structure PositionFields where
  iTOW      : Word
  lon       : Int
  lat       : Int
  height    : Int
  heightMSL : Int
  hAcc      : Word
  vAcc      : Word
deriving DecidableEq, Repr

/-- The fields of DOP (44_unpack_dispatch.md R205). -/
structure DopFields where
  iTOW : Word
  gDOP : Half
  pDOP : Half
  tDOP : Half
  vDOP : Half
  hDOP : Half
  nDOP : Half
  eDOP : Half
deriving DecidableEq, Repr

/-- The fields of VELOCITY (44_unpack_dispatch.md R206). -/
structure VelocityFields where
  iTOW        : Word
  velN        : Int
  velE        : Int
  velD        : Int
  speed       : Word
  groundSpeed : Word
  heading     : Int
  speedAcc    : Word
  headingAcc  : Word
deriving DecidableEq, Repr

/-- The fields of STATUS (44_unpack_dispatch.md R207). -/
structure StatusFields where
  iTOW : Word
deriving DecidableEq, Repr

/-- The typed fields of a record: one alternative per kind, so a record never carries two kinds' fields
(10_state.md R41, 44_unpack_dispatch.md R199). -/
inductive Fields
  | position (f : PositionFields)
  | dop (f : DopFields)
  | velocity (f : VelocityFields)
  | status (f : StatusFields)
  | unhandled
deriving DecidableEq, Repr

/-- The `Frame` record (10_state.md R41). -/
structure FrameRecord where
  cls     : Byte
  id      : Byte
  len     : LenReg
  payload : List Byte
  kind    : Kind
  fields  : Fields
deriving DecidableEq, Repr

/-- The output of a step (00_scope.md R8). -/
inductive Output
  | none
  | frame (r : FrameRecord)
  | overLength (len : LenReg)
deriving DecidableEq, Repr

/-- The event label of a step (60_exceptions.md R220). -/
inductive Event
  | none
  | desyncIgnored
  | resyncAbort
  | ckaMismatch
  | ckbMismatch
  | overlength
  | unhandledId
deriving DecidableEq, Repr

/-- The block: the complete architectural state, the tuple of 10_state.md R20, and "nothing else is state". -/
structure Block where
  st  : SeqState
  cls : Byte
  id  : Byte
  len : LenReg
  cnt : CntReg
  ckA : Byte
  ckB : Byte
  buf : Memory
deriving DecidableEq, Repr

/-- What the host's interface steps: the block, and beside it four fields that are the MODEL's own and no state of the block
(00_scope.md R13; logs 1 and 2): the edges still to come, and what the step just taken put out. -/
structure State extends Block where
  inputs   : List Edge
  out      : Output
  unpacked : Option Fields
  event    : Event
deriving DecidableEq, Repr

/-- Reasons the machine stops. -/
inductive Fault
  /-- A write of the payload buffer at an index at or above `CAP`, where no cell exists: a model "must not give"
  such a write a meaning (42_payload.md R154, 93_implementation_defined.md K1).
  Raised by PAYLOAD when `cnt >= CAP`, only in states no run reaches (10_state.md R38), and by nothing else. Safe. -/
  | outsideBuffer (index : Nat)
deriving DecidableEq, Repr

/-- Reasons a step has no meaning. -/
inductive Refusal
  /-- An instruction with no meaning yet: raised by no arm of `exec`. Safe. -/
  | notModelled (mnemonic : String)
  /-- The selector of the step decodes to nothing: raised by `step`, and never, since the opcode map is total
  (30_encoding.md R90). Safe. -/
  | undecodable (e : DecodeError)
deriving DecidableEq, Repr

/-- Right after reset: `st` is `Idle` and both strobes are 0 (10_state.md R46, R47). Every other register and cell is
unspecified there (R45); DESIGN CHOICE (logs 3 and 4): zero, one of the draws R45 allows. No edge is pending (log 6). -/
def State.reset : State where
  st := .idle
  cls := 0
  id := 0
  len := 0
  cnt := 0
  ckA := 0
  ckB := 0
  buf := []
  inputs := []
  out := .none
  unpacked := Option.none
  event := .none

end Sys2Proof.Machine
end

