-- ==== Sys2Proof/Machine/Ops.lean ====
section
/-! DEFINITION. The named operations over the payload buffer and the registers, shared by the meanings: reading and writing a
cell, the checksum step, the abort, the start of a step, and reset. -/

namespace Sys2Proof.Machine

/-- What an unlisted index of the buffer reads as. DESIGN CHOICE (log 4): the spec leaves the cells unspecified at reset
(10_state.md R45); every content of the buffer is some list of cells over this base. -/
def Memory.unlisted (_ : Nat) : Byte := 0

/-- `buf[i]` (10_state.md R34). -/
def Memory.cell : Memory → Nat → Byte
  | [], a => Memory.unlisted a
  | (x, v) :: m, a => if x = a then v else Memory.cell m a

/-- The cells but the one at `a`. -/
def Memory.forget (m : Memory) (a : Nat) : Memory := m.filter fun c => c.1 != a

/-- The cells with the one at `a` listed as `b`. -/
def Memory.insert : Memory → Nat → Byte → Memory
  | [], a, b => [(a, b)]
  | (x, v) :: m, a, b =>
    if a < x then (a, b) :: (x, v) :: m
    else if a = x then (a, b) :: m
    else (x, v) :: Memory.insert m a b

/-- `buf[a] <- b`, keeping the canonical form. -/
def Memory.store (m : Memory) (a : Nat) (b : Byte) : Memory :=
  if b = Memory.unlisted a then Memory.forget m a else Memory.insert m a b

/-- The canonical form: indices strictly rising, no cell listed that reads as if unlisted. -/
abbrev Memory.wf (m : Memory) : Prop :=
  m.Pairwise (fun p q => p.1 < q.1) ∧ ∀ c ∈ m, c.2 ≠ Memory.unlisted c.1

/-- Every listed cell exists: its index is below the capacity (20_memory.md R57). -/
abbrev Memory.inBounds (cap : Nat) (m : Memory) : Prop := ∀ c ∈ m, c.1 < cap

/-- The buffer that holds the given cells, later ones over earlier ones; cells that do not exist are dropped. -/
def Memory.ofCells (cap : Nat) (cells : List Host.Cell) : Memory :=
  cells.foldl (fun m c => if c.1 < cap then Memory.store m c.1 c.2 else m) []

/-- A read of one cell, where the cell exists (20_memory.md R52, R57). -/
def bufRead (c : Config) (m : Memory) (i : Nat) : Option Byte :=
  if i < c.cap then some (Memory.cell m i) else none

/-- `MemWrite(i, 1, b)`, the only write width, where the cell exists (20_memory.md R54; 42_payload.md R154 for the rest). -/
def bufWrite (c : Config) (m : Memory) (i : Nat) (b : Byte) : Option Memory :=
  if i < c.cap then some (Memory.store m i b) else none

/-- One byte of a record: `buf[i]` where the cell exists (10_state.md R41), a free value where it does not (log 8). -/
def recordByte (c : Config) (m : Memory) (i : Nat) : Byte := (bufRead c m i).getD (Config.absentByte i)

/-- `buf[0], buf[1], ..., buf[n-1]` (10_state.md R41). -/
def recordBytes (c : Config) (m : Memory) (n : Nat) : List Byte := (List.range n).map (recordByte c m)

/-- One step of the two running sums on the pair `(ckA, ckB)` (43_checksum.md R170): the second sum takes the NEW first. -/
def ckStep (p : Byte × Byte) (b : Byte) : Byte × Byte := (p.1 + b, p.2 + (p.1 + b))

/-- The checksum of a byte sequence (43_checksum.md R172). -/
def ckSum (bs : List Byte) : Byte × Byte := bs.foldl ckStep (0, 0)

/-- `ck_update(b)` on the accumulators (43_checksum.md R170). -/
def ckUpdate (b : Byte) (s : State) : State :=
  { s with ckA := (ckStep (s.ckA, s.ckB) b).1, ckB := (ckStep (s.ckA, s.ckB) b).2 }

/-- What an abort does (60_exceptions.md R232): it writes `st` and labels the step with its event (00_scope.md R10,
`raise`); it saves nothing, and every other register and cell keeps what it held. There is no return from it (R234). -/
def abort (target : SeqState) (e : Event) (s : State) : State :=
  { s with st := target, event := e }

/-- The start of a step: the edge is consumed, and the output is `None` unless the step assigns it (00_scope.md R10,
40_sync.md R110). -/
def State.begin (s : State) (rest : List Edge) : State :=
  { s with inputs := rest, out := .none, unpacked := none, event := .none }

/-- The state a reset leaves (70_reset_and_hazards.md R260, 10_state.md R46): `Idle`, both strobes 0, no event, and the
unspecified registers and cells as the draw has them. -/
def State.resetWith (c : Config) (d : Draw) (rest : List Edge) : State where
  st := .idle
  cls := d.cls
  id := d.id
  len := d.len
  cnt := d.cnt
  ckA := d.ckA
  ckB := d.ckB
  buf := Memory.ofCells c.cap d.cells
  inputs := rest
  out := .none
  unpacked := none
  event := .none

/-- The edge at which the producer presents the byte `b` (10_state.md R39). Its draw is not read. -/
def Edge.ofByte (b : Byte) : Edge := ⟨false, true, b, Draw.zero⟩

end Sys2Proof.Machine
end

