-- ==== Sys2Proof/Machine/Operands.lean ====
section
/-! DEFINITION. The operand forms: the length assembled from two bytes, and the little-endian fields assembled from buffer
cells (30_encoding.md R87, R88; 44_unpack_dispatch.md R190 to R195). -/

namespace Sys2Proof.Machine

/-- `zext_16(b)`, the length LENLO writes (41_header.md R132). -/
def lenLow (b : Byte) : LenReg := b.zeroExtend 16

/-- `b ‖ len[7:0]`, the length LENHI writes (41_header.md R133). -/
def lenNext (b : Byte) (len : LenReg) : LenReg := b ++ len.extractLsb' 0 8

/-- `MemRead(i, n)` as the sum of 20_memory.md R52: `buf[i] + 256*buf[i+1] + ...`. -/
def leSum (m : Memory) (i : Nat) : Nat → Nat
  | 0 => 0
  | n + 1 => leSum m i n + (Memory.cell m (i + n)).toNat * 256 ^ n

/-- `MemRead(i, n)`, defined for `n` in {1, 2, 4} and `i + n <= CAP` (20_memory.md R52). -/
def memRead (c : Config) (m : Memory) (i n : Nat) : Option Nat :=
  if (n = 1 ∨ n = 2 ∨ n = 4) ∧ i + n ≤ c.cap then some (leSum m i n) else none

/-- The accumulation of 44_unpack_dispatch.md R191, from the most significant byte down, begun at `v`. -/
def accumulate (m : Memory) (o : Nat) : Nat → Nat → Nat
  | 0, v => v
  | k + 1, v => accumulate m o k ((v <<< 8) ||| (Memory.cell m (o + k)).toNat)

/-- `LE(o, 2)` as a 16-bit value: the byte at the lower index is the less significant (44_unpack_dispatch.md R190). -/
def le16 (m : Memory) (o : Nat) : Half := Memory.cell m (o + 1) ++ Memory.cell m o

/-- `LE(o, 4)` as a 32-bit value (44_unpack_dispatch.md R190). -/
def le32 (m : Memory) (o : Nat) : Word :=
  ((Memory.cell m (o + 3) ++ Memory.cell m (o + 2)) ++ Memory.cell m (o + 1)) ++ Memory.cell m o

/-- `U16(o)` (44_unpack_dispatch.md R192). -/
def fieldU16 (m : Memory) (o : Nat) : Half := le16 m o

/-- `U32(o)` (44_unpack_dispatch.md R193). -/
def fieldU32 (m : Memory) (o : Nat) : Word := le32 m o

/-- `I32(o) = signed_32(LE(o, 4))`, two's complement (44_unpack_dispatch.md R194, the spec's general knowledge K5; log 12). -/
def fieldI32 (m : Memory) (o : Nat) : Int := (le32 m o).toInt

/-- `signed_16(LE(o, 2))`: the primitive allows it, no schema uses it (44_unpack_dispatch.md R195). -/
def fieldI16 (m : Memory) (o : Nat) : Int := (le16 m o).toInt

/-- `signed_N(v)` (00_scope.md R9). -/
def signedN (n v : Nat) : Int := if v < 2 ^ (n - 1) then (v : Int) else (v : Int) - 2 ^ n

end Sys2Proof.Machine
end

