-- ==== Sys2Proof/Machine/Flags.lean ====
section
/-! DEFINITION. The block stores no flag (10_state.md R32). Here are its combinational tests, consumed in the step that makes
them, and the two strobes, functions of a step's output. -/

namespace Sys2Proof.Machine

/-- `len_next > CAP` (41_header.md R133, R134). -/
def lenExceeds (c : Config) (len : LenReg) : Bool := c.cap < len.toNat

/-- `len_next == 0` (41_header.md R133). -/
def lenIsZero (len : LenReg) : Bool := len == 0

/-- `cnt + 1 == len`, an equality of two 16-bit values (42_payload.md R150, R152). -/
def lastByte (s : State) : Bool := s.cnt + 1 == s.len

/-- `b == ckA` (43_checksum.md R174). -/
def ckAMatches (b : Byte) (s : State) : Bool := b == s.ckA

/-- `b == ckB` (43_checksum.md R175). -/
def ckBMatches (b : Byte) (s : State) : Bool := b == s.ckB

/-- A frame is in progress: `st` is one of `SawSync2` to `HaveChecksumA` (60_exceptions.md R222). -/
def SeqState.inFrame : SeqState → Bool
  | .idle => false
  | .sawSync1 => false
  | .sawSync2 => true
  | .haveClass => true
  | .haveId => true
  | .haveLengthLow => true
  | .haveLengthHigh => true
  | .havePayload => true
  | .haveChecksumA => true

/-- `frame_valid`: 1 exactly in a step whose output is `Frame(..)` (10_state.md R40). -/
def Output.frameValid : Output → Bool
  | .none => false
  | .frame _ => true
  | .overLength _ => false

/-- `ovl`: 1 exactly in a step whose output is `OverLength(..)` (10_state.md R40). -/
def Output.ovl : Output → Bool
  | .none => false
  | .frame _ => false
  | .overLength _ => true

/-- The codes of the events (60_exceptions.md R220). -/
def Event.code : Event → Nat
  | .none => 0
  | .desyncIgnored => 1
  | .resyncAbort => 2
  | .ckaMismatch => 3
  | .ckbMismatch => 4
  | .overlength => 5
  | .unhandledId => 6

end Sys2Proof.Machine
end

