-- ==== Sys2Proof/Machine/Header.lean ====
section
/-! DEFINITION. The header capture operations CLASS, ID, LENLO and LENHI (41_header.md). -/

namespace Sys2Proof.Machine

/-- CLASS (41_header.md R130). -/
def execCls (b : Byte) (s : State) : Host.Outcome State Fault Refusal :=
  .next { ckUpdate b s with cls := b, st := .haveClass }

/-- ID (41_header.md R131). -/
def execIdent (b : Byte) (s : State) : Host.Outcome State Fault Refusal :=
  .next { ckUpdate b s with id := b, st := .haveId }

/-- LENLO (41_header.md R132): all 16 bits of `len` are written. -/
def execLenlo (b : Byte) (s : State) : Host.Outcome State Fault Refusal :=
  .next { ckUpdate b s with len := lenLow b, st := .haveLengthLow }

/-- The register writes of LENHI, made on all three of its outcomes (41_header.md R133). -/
def lenhiRegs (b : Byte) (s : State) : State :=
  { ckUpdate b s with len := lenNext b s.len, cnt := 0 }

/-- LENHI at any capacity (41_header.md R133, R134): reject, go to the checksum, or go to the payload. -/
def lenhi (c : Config) (b : Byte) (s : State) : State :=
  if lenExceeds c (lenNext b s.len) then
    { abort .idle .overlength (lenhiRegs b s) with out := .overLength (lenNext b s.len) }
  else if lenIsZero (lenNext b s.len) then { lenhiRegs b s with st := .havePayload }
  else { lenhiRegs b s with st := .haveLengthHigh }

/-- LENHI (41_header.md R133). -/
def execLenhi (b : Byte) (s : State) : Host.Outcome State Fault Refusal :=
  .next (lenhi Config.hardware b s)

end Sys2Proof.Machine
end

