-- ==== Sys2Proof/Machine/Payload.lean ====
section
/-! DEFINITION. The payload buffer controller's operation PAYLOAD (42_payload.md). -/

namespace Sys2Proof.Machine

/-- The index PAYLOAD writes: `cnt` before the step (42_payload.md R150). -/
def payloadIndex (s : State) : Nat := s.cnt.toNat

/-- PAYLOAD at any capacity (42_payload.md R150). A write at an index at or above the capacity does not exist (R154; log 8). -/
def payload (c : Config) (b : Byte) (s : State) : Host.Outcome State Fault Refusal :=
  match bufWrite c s.buf (payloadIndex s) b with
  | none => .fault (.outsideBuffer (payloadIndex s))
  | some m =>
    .next { ckUpdate b s with
      buf := m
      cnt := s.cnt + 1
      st := if lastByte s then .havePayload else .haveLengthHigh }

/-- PAYLOAD (42_payload.md R150). -/
def execPayload (b : Byte) (s : State) : Host.Outcome State Fault Refusal :=
  payload Config.hardware b s

end Sys2Proof.Machine
end

