-- ==== Sys2Proof/Machine/Sync.lean ====
section
/-! DEFINITION. The synchronisation operations RESYNC, SYNC2 and IGNORE (40_sync.md). -/

namespace Sys2Proof.Machine

/-- RESYNC (40_sync.md R111): only `st` is written; RESYNC_ABORT is raised when a frame was in progress
(60_exceptions.md R222). -/
def execResync (s : State) : Host.Outcome State Fault Refusal :=
  .next (if SeqState.inFrame s.st then abort .sawSync1 .resyncAbort s else { s with st := .sawSync1 })

/-- SYNC2 (40_sync.md R112). -/
def execSync2 (s : State) : Host.Outcome State Fault Refusal :=
  .next { s with st := .sawSync2, ckA := 0, ckB := 0 }

/-- What IGNORE does in either of its states (40_sync.md R113): nothing is written; the step carries the label
DESYNC_IGNORED (60_exceptions.md R221). -/
def ignoreByte (s : State) : State := { s with event := .desyncIgnored }

/-- IGNORE in `Idle` (40_sync.md R113). -/
def execIgnoreIdle (s : State) : Host.Outcome State Fault Refusal := .next (ignoreByte s)

/-- IGNORE in `SawSync1` (40_sync.md R113): the state does not fall back to `Idle`. -/
def execIgnoreSync1 (s : State) : Host.Outcome State Fault Refusal := .next (ignoreByte s)

end Sys2Proof.Machine
end

