-- ==== Sys2Proof/Machine/Unpack.lean ====
section
/-! DEFINITION. The field unpacker and the five kind decodes (44_unpack_dispatch.md), and the field bus. -/

namespace Sys2Proof.Machine

/-- The 3-bit codes of `msg_kind` (10_state.md R42). -/
def Kind.code : Kind → KindCode
  | .position => 0
  | .dop => 1
  | .velocity => 2
  | .status => 3
  | .unhandled => 4

/-- `kind_of(id)` (44_unpack_dispatch.md R196). -/
def kindOf (id : Byte) : Kind :=
  if id = 0x02 then .position
  else if id = 0x04 then .dop
  else if id = 0x12 then .velocity
  else if id = 0x06 then .status
  else .unhandled

/-- The fields of DEC_POSITION (44_unpack_dispatch.md R204). -/
def positionFields (m : Memory) : PositionFields where
  iTOW := fieldU32 m 0
  lon := fieldI32 m 4
  lat := fieldI32 m 8
  height := fieldI32 m 12
  heightMSL := fieldI32 m 16
  hAcc := fieldU32 m 20
  vAcc := fieldU32 m 24

/-- The fields of DEC_DOP (44_unpack_dispatch.md R205). -/
def dopFields (m : Memory) : DopFields where
  iTOW := fieldU32 m 0
  gDOP := fieldU16 m 4
  pDOP := fieldU16 m 6
  tDOP := fieldU16 m 8
  vDOP := fieldU16 m 10
  hDOP := fieldU16 m 12
  nDOP := fieldU16 m 14
  eDOP := fieldU16 m 16

/-- The fields of DEC_VELOCITY (44_unpack_dispatch.md R206). -/
def velocityFields (m : Memory) : VelocityFields where
  iTOW := fieldU32 m 0
  velN := fieldI32 m 4
  velE := fieldI32 m 8
  velD := fieldI32 m 12
  speed := fieldU32 m 16
  groundSpeed := fieldU32 m 20
  heading := fieldI32 m 24
  speedAcc := fieldU32 m 28
  headingAcc := fieldU32 m 32

/-- The field of DEC_STATUS (44_unpack_dispatch.md R207). -/
def statusFields (m : Memory) : StatusFields where
  iTOW := fieldU32 m 0

/-- The typed fields of a kind, every read from the cells as they stand (44_unpack_dispatch.md R200, R203). -/
def fieldsOf (k : Kind) (m : Memory) : Fields :=
  match k with
  | .position => .position (positionFields m)
  | .dop => .dop (dopFields m)
  | .velocity => .velocity (velocityFields m)
  | .status => .status (statusFields m)
  | .unhandled => .unhandled

/-- A kind decode reads `buf` and writes no architectural state: it drives the unpacker's output (44_unpack_dispatch.md,
section 5; log 9). -/
def drive (f : Fields) (s : State) : State := { s with unpacked := some f }

/-- DEC_POSITION on a state (44_unpack_dispatch.md R204). -/
def decPosition (s : State) : State := drive (.position (positionFields s.buf)) s

/-- DEC_DOP on a state (44_unpack_dispatch.md R205). -/
def decDop (s : State) : State := drive (.dop (dopFields s.buf)) s

/-- DEC_VELOCITY on a state (44_unpack_dispatch.md R206). -/
def decVelocity (s : State) : State := drive (.velocity (velocityFields s.buf)) s

/-- DEC_STATUS on a state (44_unpack_dispatch.md R207). -/
def decStatus (s : State) : State := drive (.status (statusFields s.buf)) s

/-- DEC_UNHANDLED on a state (44_unpack_dispatch.md R208): no field, and the label UNHANDLED_ID (60_exceptions.md R226). -/
def decUnhandled (s : State) : State := { drive .unhandled s with event := .unhandledId }

/-- The kind decode of a kind. -/
def kindDecode (k : Kind) (s : State) : State :=
  match k with
  | .position => decPosition s
  | .dop => decDop s
  | .velocity => decVelocity s
  | .status => decStatus s
  | .unhandled => decUnhandled s

/-- DEC_POSITION (44_unpack_dispatch.md R204). -/
def execDecPosition (s : State) : Host.Outcome State Fault Refusal := .next (decPosition s)

/-- DEC_DOP (44_unpack_dispatch.md R205). -/
def execDecDop (s : State) : Host.Outcome State Fault Refusal := .next (decDop s)

/-- DEC_VELOCITY (44_unpack_dispatch.md R206). -/
def execDecVelocity (s : State) : Host.Outcome State Fault Refusal := .next (decVelocity s)

/-- DEC_STATUS (44_unpack_dispatch.md R207). -/
def execDecStatus (s : State) : Host.Outcome State Fault Refusal := .next (decStatus s)

/-- DEC_UNHANDLED (44_unpack_dispatch.md R208). -/
def execDecUnhandled (s : State) : Host.Outcome State Fault Refusal := .next (decUnhandled s)

/-- The field bus `field[0..8]` (44_unpack_dispatch.md R201): a `u16` zero-extended, a `u32` or `i32` as its 32-bit pattern,
an unused slot 0. -/
def Fields.bus : Fields → FieldBus
  | .position f =>
      #v[f.iTOW, BitVec.ofInt 32 f.lon, BitVec.ofInt 32 f.lat, BitVec.ofInt 32 f.height, BitVec.ofInt 32 f.heightMSL,
         f.hAcc, f.vAcc, 0, 0]
  | .dop f =>
      #v[f.iTOW, f.gDOP.zeroExtend 32, f.pDOP.zeroExtend 32, f.tDOP.zeroExtend 32, f.vDOP.zeroExtend 32,
         f.hDOP.zeroExtend 32, f.nDOP.zeroExtend 32, f.eDOP.zeroExtend 32, 0]
  | .velocity f =>
      #v[f.iTOW, BitVec.ofInt 32 f.velN, BitVec.ofInt 32 f.velE, BitVec.ofInt 32 f.velD, f.speed, f.groundSpeed,
         BitVec.ofInt 32 f.heading, f.speedAcc, f.headingAcc]
  | .status f => #v[f.iTOW, 0, 0, 0, 0, 0, 0, 0, 0]
  | .unhandled => #v[0, 0, 0, 0, 0, 0, 0, 0, 0]

end Sys2Proof.Machine
end

