-- ==== Sys2Proof/Machine/Verify.lean ====
section
/-! DEFINITION. The verify operations CKA and CKB (43_checksum.md). -/

namespace Sys2Proof.Machine

/-- CKA (43_checksum.md R174): the byte is compared, never folded in. -/
def execCka (b : Byte) (s : State) : Host.Outcome State Fault Refusal :=
  if ckAMatches b s then .next { s with st := .haveChecksumA } else .next (abort .idle .ckaMismatch s)

/-- The `Frame` record of a state (10_state.md R41, 44_unpack_dispatch.md R200), given its payload bytes. -/
def frameRecord (bytes : List Byte) (s : State) : FrameRecord where
  cls := s.cls
  id := s.id
  len := s.len
  payload := bytes
  kind := kindOf s.id
  fields := fieldsOf (kindOf s.id) s.buf

/-- CKB at any capacity (43_checksum.md R175). On a match `st` goes to `Idle`, the kind decode that `id` selects runs in the
same step, and the record is the step's output, whatever `len` is. -/
def ckb (c : Config) (b : Byte) (s : State) : State :=
  if ckBMatches b s then
    { kindDecode (kindOf s.id) { s with st := .idle } with
      out := .frame (frameRecord (recordBytes c s.buf s.len.toNat) s) }
  else abort .idle .ckbMismatch s

/-- CKB (43_checksum.md R175). -/
def execCkb (b : Byte) (s : State) : Host.Outcome State Fault Refusal :=
  .next (ckb Config.hardware b s)

end Sys2Proof.Machine
end

