-- ==== Sys2Proof/Machine/Dispatch.lean ====
section
/-! DEFINITION. One arm per instruction: a direct call of its meaning. -/

namespace Sys2Proof.Machine

def exec (i : Instr) (s : State) : Host.Outcome State Fault Refusal :=
  match i with
  | .resync => Sys2Proof.Machine.execResync s
  | .sync2 => Sys2Proof.Machine.execSync2 s
  | .ignoreIdle => Sys2Proof.Machine.execIgnoreIdle s
  | .ignoreSync1 => Sys2Proof.Machine.execIgnoreSync1 s
  | .cls b => Sys2Proof.Machine.execCls b s
  | .ident b => Sys2Proof.Machine.execIdent b s
  | .lenlo b => Sys2Proof.Machine.execLenlo b s
  | .lenhi b => Sys2Proof.Machine.execLenhi b s
  | .payload b => Sys2Proof.Machine.execPayload b s
  | .cka b => Sys2Proof.Machine.execCka b s
  | .ckb b => Sys2Proof.Machine.execCkb b s
  | .decPosition => Sys2Proof.Machine.execDecPosition s
  | .decDop => Sys2Proof.Machine.execDecDop s
  | .decVelocity => Sys2Proof.Machine.execDecVelocity s
  | .decStatus => Sys2Proof.Machine.execDecStatus s
  | .decUnhandled => Sys2Proof.Machine.execDecUnhandled s

end Sys2Proof.Machine
end

