-- ==== Sys2Proof/Machine/Feed.lean ====
section
/-! DEFINITION. One byte through the block: the selector is made from `st` and the byte, decoded, and the one operation it
names is performed (40_sync.md R110). What one clock edge does (10_state.md R39, R46), at any configuration. -/

namespace Sys2Proof.Machine

/-- What performs an operation: `exec`, or `perform c` at another configuration. -/
abbrev Executor := Instr → State → Host.Outcome State Fault Refusal

/-- An operation at a configuration (00_scope.md R5): the three that read the capacity take it from there. -/
def perform (c : Config) : Executor
  | .resync, s => exec .resync s
  | .sync2, s => exec .sync2 s
  | .ignoreIdle, s => exec .ignoreIdle s
  | .ignoreSync1, s => exec .ignoreSync1 s
  | .cls b, s => exec (.cls b) s
  | .ident b, s => exec (.ident b) s
  | .lenlo b, s => exec (.lenlo b) s
  | .lenhi b, s => .next (lenhi c b s)
  | .payload b, s => payload c b s
  | .cka b, s => exec (.cka b) s
  | .ckb b, s => .next (ckb c b s)
  | .decPosition, s => exec .decPosition s
  | .decDop, s => exec .decDop s
  | .decVelocity, s => exec .decVelocity s
  | .decStatus, s => exec .decStatus s
  | .decUnhandled, s => exec .decUnhandled s

/-- `feed` (40_sync.md R110), on a state whose outputs have been cleared. -/
def feed (c : Config) (run : Executor) (b : Byte) (s : State) : Host.Outcome State Fault Refusal :=
  match decodeSB c (selectorSB s.st b) with
  | .ok i => run i s
  | .error e => .refused (.undecodable e)

/-- A block with its outputs cleared and the given edges to come. -/
def Block.withInputs (blk : Block) (rest : List Edge) : State :=
  { blk with inputs := rest, out := .none, unpacked := none, event := .none }

/-- `feed(S, b) = (S', out)` (00_scope.md R8): a function of the block and the byte alone. -/
def feedBlock (c : Config) (run : Executor) (blk : Block) (b : Byte) : Host.Outcome (Block × Output) Fault Refusal :=
  match feed c run b (blk.withInputs []) with
  | .next t => .next (t.toBlock, t.out)
  | .fault f => .fault f
  | .refused r => .refused r

/-- One clock edge (10_state.md R39, R46): reset has priority over a byte (60_exceptions.md R230); with neither, nothing
changes and both strobes are 0. -/
def clockEdge (c : Config) (run : Executor) (e : Edge) (rest : List Edge) (s : State) :
    Host.Outcome State Fault Refusal :=
  if e.rst then .next (State.resetWith c e.draw rest)
  else if e.inValid then feed c run e.inByte (s.begin rest)
  else .next (s.begin rest)

/-- No edge is pending: the block waits in its state (70_reset_and_hazards.md R272; log 1). -/
def waitForEdge (s : State) : Host.Outcome State Fault Refusal := .next (s.begin [])

/-- The next clock edge, where one is pending. -/
def stepWith (c : Config) (run : Executor) (s : State) : Host.Outcome State Fault Refusal :=
  match s.inputs with
  | [] => waitForEdge s
  | e :: rest => clockEdge c run e rest s

/-- One step of the block built with the configuration `c` (00_scope.md R5). -/
def stepAt (c : Config) (s : State) : Host.Outcome State Fault Refusal := stepWith c (perform c) s

/-- The state in which the next step's selector is `code ‖ b`: the state register holds the code, and the byte is the next
input. A code that names no state reads as `Idle` (30_encoding.md R95). -/
def placeSB (code : StCode) (b : Byte) (s : State) : State :=
  { s with st := SeqState.ofGateCode code, inputs := Edge.ofByte b :: s.inputs }

/-- The state in which the next step is a delivering CKB with `i` in the `id` register (30_encoding.md R85): the next byte is
`ckB`, which must differ from `SYNC1` or the step would be RESYNC. -/
def placeID (i : Byte) (s : State) : State :=
  let k : Byte := if s.ckB = Config.hardware.sync1 then 0 else s.ckB
  { s with st := .haveChecksumA, id := i, ckB := k, inputs := Edge.ofByte k :: s.inputs }

/-- The state in which the next step runs the table word `w` of `nbits` bits (log 6). -/
def placeWord (nbits w : Nat) (s : State) : State :=
  if nbits ≤ 8 then placeID (BitVec.ofNat 8 w) s
  else placeSB (BitVec.ofNat 4 (w / 256)) (BitVec.ofNat 8 w) s

end Sys2Proof.Machine
end

