-- ==== Sys2Proof/Machine/Step.lean ====
section
/-! DEFINITION. One step of the machine: the next clock edge, where one is pending. And the placing of a table word. -/

namespace Sys2Proof.Machine

/-- One step of this hardware (00_scope.md R7, 10_state.md R39). -/
def step (s : State) : Host.Outcome State Fault Refusal := stepWith Config.hardware exec s

/-- `s` with the table word `w` of `nbits` bits where the next step takes its selector. -/
def State.withFetchWord (s : State) (nbits w : Nat) : State := placeWord nbits w s

end Sys2Proof.Machine
end

