-- ==== Sys2Proof/Machine/Ports.lean ====
section
/-! DEFINITION. The output ports as functions of a step's output, and the read port (10_state.md R40, R41, R43). -/

namespace Sys2Proof.Machine

/-- The outputs of one step. `none` marks a port that carries no meaning in that step (10_state.md R40, "meaningful only
while"; log 14). -/
structure OutPorts where
  frameValid : Bool
  ovl        : Bool
  msgClass   : Option Byte
  msgId      : Option Byte
  msgLen     : Option LenReg
  msgKind    : Option KindCode
  field      : Option FieldBus
deriving DecidableEq, Repr

/-- The ports of a step's output: the record on a delivery (10_state.md R41), `msg_len` alone on an over-length rejection
(R43). -/
def Output.ports (o : Output) : OutPorts :=
  match o with
  | .none => ⟨o.frameValid, o.ovl, Option.none, Option.none, Option.none, Option.none, Option.none⟩
  | .frame r => ⟨o.frameValid, o.ovl, some r.cls, some r.id, some r.len, some (Kind.code r.kind), some r.fields.bus⟩
  | .overLength l => ⟨o.frameValid, o.ovl, Option.none, Option.none, some l, Option.none, Option.none⟩

/-- `msg_kind` as a combinational function of `id` (10_state.md R44): what it follows whether or not a record is being
delivered. -/
def liveKind (s : State) : KindCode := Kind.code (kindOf s.id)

/-- The field bus as a combinational function of `id` and `buf` (10_state.md R44, 44_unpack_dispatch.md R201). -/
def liveFields (s : State) : FieldBus := (fieldsOf (kindOf s.id) s.buf).bus

/-- `rd_byte` for `rd_idx` (10_state.md R40; 0 out of range is the spec's own decision D7). -/
def readPort (c : Config) (s : State) (idx : Half) : Byte := (bufRead c s.buf idx.toNat).getD 0

end Sys2Proof.Machine
end

