-- ==== Sys2Proof/Machine/Stream.lean ====
section
/-! DEFINITION. The notation for streams: the pseudo-instructions FRAME, u16, u32 and i32 (30_encoding.md R98 to R100). They
describe what a producer sends; the block has no part that makes them (00_scope.md R4 (b)). -/

namespace Sys2Proof.Machine

/-- The bytes the checksum covers (30_encoding.md R81): class, id, lengthLow, lengthHigh, payload. -/
def coveredBytes (cls id : Byte) (payload : List Byte) : List Byte :=
  cls :: id :: BitVec.ofNat 8 payload.length :: BitVec.ofNat 8 (payload.length / 256) :: payload

/-- A frame on the wire with the given two checksum bytes (30_encoding.md R80, R81). -/
def wireFrame (cls id : Byte) (payload : List Byte) (ck : Byte × Byte) : List Byte :=
  Config.hardware.sync1 :: Config.hardware.sync2 :: (coveredBytes cls id payload ++ [ck.1, ck.2])

/-- `FRAME cls id [payload]` (30_encoding.md R99): the frame with its checksum. -/
def frameBytes (cls id : Byte) (payload : List Byte) : List Byte :=
  wireFrame cls id payload (ckSum (coveredBytes cls id payload))

/-- `u16(v)` (30_encoding.md R100). -/
def u16Bytes (v : Half) : List Byte := [v.extractLsb' 0 8, v.extractLsb' 8 8]

/-- `u32(v)` (30_encoding.md R100). -/
def u32Bytes (v : Word) : List Byte :=
  [v.extractLsb' 0 8, v.extractLsb' 8 8, v.extractLsb' 16 8, v.extractLsb' 24 8]

/-- `i32(v)` is `u32(v mod 2^32)` (30_encoding.md R100). -/
def i32Bytes (v : Int) : List Byte := u32Bytes (BitVec.ofInt 32 v)

/-- The edges that present a stream, one byte a step, with no reset and no gap. -/
def edgesOf (bs : List Byte) : List Edge := bs.map Edge.ofByte

/-- A clean frame (00_scope.md R12): declared length at most `CAP`, and no body byte equal to `SYNC1`; its checksum is
correct because `frameBytes` makes it so. The body is every byte after the two sync bytes. -/
def CleanFrame (cls id : Byte) (payload : List Byte) : Prop :=
  payload.length ≤ Config.hardware.cap ∧ ∀ b ∈ (frameBytes cls id payload).drop 2, b ≠ Config.hardware.sync1

end Sys2Proof.Machine
end

