-- ==== Sys2Proof/Safety.lean ====
section
/-! DEFINITION. The terms the statements use: the spec's own tables and laws written a second time, apart from the machine (the
chain of 40_sync.md R110, the tables of 40_sync.md R117 and 60_exceptions.md R220), the invariant of 10_state.md R38, and what a
meaning leaves unchanged. -/

namespace Sys2Proof.Machine

/-! ## Runs -/

/-- `n` steps from a state. -/
abbrev runFrom (n : Nat) (s : State) : Host.Outcome State Fault Refusal := Host.Core.run Sys2Proof.core n s

/-! ## Frames -/

/-- Every cell of the buffer reads in `t` as it does in `s`. -/
def SameCells (s t : State) : Prop := ∀ a, Memory.cell t.buf a = Memory.cell s.buf a

/-- The six data registers of 10_state.md R20 are the same in `t` as in `s`. -/
def SameRegs (s t : State) : Prop :=
  t.cls = s.cls ∧ t.id = s.id ∧ t.len = s.len ∧ t.cnt = s.cnt ∧ t.ckA = s.ckA ∧ t.ckB = s.ckB

/-- The pending edges and the unpacker's output are the same in `t` as in `s`. -/
def SameInputs (s t : State) : Prop := t.inputs = s.inputs ∧ t.unpacked = s.unpacked

/-! ## The chain of 40_sync.md R110 -/

/-- The operation a step performs, as the chain of conditions of 40_sync.md R110: the first that holds decides. -/
def chainOp (c : Config) (st : SeqState) (b : Byte) : Instr :=
  if b = c.sync1 then .resync
  else if st = .sawSync1 ∧ b = c.sync2 then .sync2
  else if st = .sawSync2 then .cls b
  else if st = .haveClass then .ident b
  else if st = .haveId then .lenlo b
  else if st = .haveLengthLow then .lenhi b
  else if st = .haveLengthHigh then .payload b
  else if st = .havePayload then .cka b
  else if st = .haveChecksumA then .ckb b
  else if st = .sawSync1 then .ignoreSync1
  else .ignoreIdle

/-- The kind decode of a kind, as an instruction. -/
def kindInstr : Kind → Instr
  | .position => .decPosition
  | .dop => .decDop
  | .velocity => .decVelocity
  | .status => .decStatus
  | .unhandled => .decUnhandled

/-- The byte an operation folds into the checksum: that of CLASS, ID, LENLO, LENHI and PAYLOAD, and of no other operation
(43_checksum.md R170). -/
def checksumByte : Instr → Option Byte
  | .resync => none
  | .sync2 => none
  | .ignoreIdle => none
  | .ignoreSync1 => none
  | .cls b => some b
  | .ident b => some b
  | .lenlo b => some b
  | .lenhi b => some b
  | .payload b => some b
  | .cka _ => none
  | .ckb _ => none
  | .decPosition => none
  | .decDop => none
  | .decVelocity => none
  | .decStatus => none
  | .decUnhandled => none

/-! ## The schema table of 44_unpack_dispatch.md R198 -/

/-- The kind whose fields these are. -/
def Fields.kind : Fields → Kind
  | .position _ => .position
  | .dop _ => .dop
  | .velocity _ => .velocity
  | .status _ => .status
  | .unhandled => .unhandled

/-- The fields hold the value column of 44_unpack_dispatch.md R198 for their kind, read from the cells of `m`. -/
def ValueColumn (m : Memory) : Fields → Prop
  | .position f =>
    f.iTOW = fieldU32 m 0 ∧ f.lon = fieldI32 m 4 ∧ f.lat = fieldI32 m 8 ∧ f.height = fieldI32 m 12 ∧
    f.heightMSL = fieldI32 m 16 ∧ f.hAcc = fieldU32 m 20 ∧ f.vAcc = fieldU32 m 24
  | .dop f =>
    f.iTOW = fieldU32 m 0 ∧ f.gDOP = fieldU16 m 4 ∧ f.pDOP = fieldU16 m 6 ∧ f.tDOP = fieldU16 m 8 ∧
    f.vDOP = fieldU16 m 10 ∧ f.hDOP = fieldU16 m 12 ∧ f.nDOP = fieldU16 m 14 ∧ f.eDOP = fieldU16 m 16
  | .velocity f =>
    f.iTOW = fieldU32 m 0 ∧ f.velN = fieldI32 m 4 ∧ f.velE = fieldI32 m 8 ∧ f.velD = fieldI32 m 12 ∧
    f.speed = fieldU32 m 16 ∧ f.groundSpeed = fieldU32 m 20 ∧ f.heading = fieldI32 m 24 ∧
    f.speedAcc = fieldU32 m 28 ∧ f.headingAcc = fieldU32 m 32
  | .status f => f.iTOW = fieldU32 m 0
  | .unhandled => True

/-- The payload of a record delivered from this state: `len` bytes, `buf[k]` at every index `k` where a cell exists
(10_state.md R41). At an index at or above the capacity, which no reachable state has, nothing is said (log 8). -/
def PayloadOf (s : State) (p : List Byte) : Prop :=
  p.length = s.len.toNat ∧ ∀ k, k < s.len.toNat → k < 1000 → p[k]? = some (Memory.cell s.buf k)

/-- The record that a delivery from this state must put out (10_state.md R41, 44_unpack_dispatch.md R200). -/
def IsRecordOf (s : State) (r : FrameRecord) : Prop :=
  r.cls = s.cls ∧ r.id = s.id ∧ r.len = s.len ∧ PayloadOf s r.payload ∧
  r.kind = kindOf s.id ∧ r.fields.kind = r.kind ∧ ValueColumn s.buf r.fields

/-! ## The next-state table of 40_sync.md R117 and the event table of 60_exceptions.md R220 -/

/-- `len'` of 40_sync.md R117, as a number: 30_encoding.md R87 with the low byte already in `len`. -/
def declaredLen (s : State) (b : Byte) : Nat := s.len.toNat % 256 + 256 * b.toNat

/-- The column "state after" of 40_sync.md R117. -/
def tableNext (s : State) (b : Byte) : SeqState :=
  if b = 0xB5 then .sawSync1
  else match s.st with
    | .idle => .idle
    | .sawSync1 => if b = 0x62 then .sawSync2 else .sawSync1
    | .sawSync2 => .haveClass
    | .haveClass => .haveId
    | .haveId => .haveLengthLow
    | .haveLengthLow =>
      if 1000 < declaredLen s b then .idle else if declaredLen s b = 0 then .havePayload else .haveLengthHigh
    | .haveLengthHigh => if s.cnt.toNat + 1 = s.len.toNat then .havePayload else .haveLengthHigh
    | .havePayload => if b = s.ckA then .haveChecksumA else .idle
    | .haveChecksumA => .idle

/-- The column of events of 60_exceptions.md R220. -/
def tableEvent (s : State) (b : Byte) : Event :=
  if b = 0xB5 then
    (if s.st = .idle ∨ s.st = .sawSync1 then .none else .resyncAbort)
  else match s.st with
    | .idle => .desyncIgnored
    | .sawSync1 => if b = 0x62 then .none else .desyncIgnored
    | .sawSync2 => .none
    | .haveClass => .none
    | .haveId => .none
    | .haveLengthLow => if 1000 < declaredLen s b then .overlength else .none
    | .haveLengthHigh => .none
    | .havePayload => if b = s.ckA then .none else .ckaMismatch
    | .haveChecksumA =>
      if b = s.ckB then (if kindOf s.id = .unhandled then .unhandledId else .none) else .ckbMismatch

/-- The place of a state in the source's order (10_state.md R28, R29). -/
def SeqState.rank (st : SeqState) : Nat := st.code.toNat

/-! ## The invariant of 10_state.md R38 -/

/-- The bytes consumed by CLASS, ID, LENLO, LENHI and PAYLOAD since the last SYNC2, in order, as the registers and cells hold
them (10_state.md R38 (d), 43_checksum.md R173). -/
def covered (s : State) : List Byte :=
  match s.st with
  | .idle => []
  | .sawSync1 => []
  | .sawSync2 => []
  | .haveClass => [s.cls]
  | .haveId => [s.cls, s.id]
  | .haveLengthLow => [s.cls, s.id, s.len.extractLsb' 0 8]
  | _ =>
    s.cls :: s.id :: s.len.extractLsb' 0 8 :: s.len.extractLsb' 8 8 :: (List.range s.cnt.toNat).map (Memory.cell s.buf)

/-- 10_state.md R38 (a) and (b) at a given capacity. -/
structure LengthInv (c : Config) (s : State) : Prop where
  receiving : s.st = .haveLengthHigh → s.cnt.toNat < s.len.toNat ∧ s.len.toNat ≤ c.cap
  received  : s.st = .havePayload ∨ s.st = .haveChecksumA → s.cnt = s.len ∧ s.len.toNat ≤ c.cap

/-- The invariant of the machine: the buffer's canonical form and bounds (20_memory.md R57), 10_state.md R38, the premise of
41_header.md R135, and that no byte taken as part of a frame is `0xB5` (40_sync.md R114). -/
structure Inv (s : State) : Prop where
  bufWf        : Memory.wf s.buf
  bufIn        : Memory.inBounds 1000 s.buf
  lenLow       : s.st = .haveLengthLow → s.len.toNat < 256
  lengths      : LengthInv Config.hardware s
  checksum     : SeqState.inFrame s.st = true → (s.ckA, s.ckB) = ckSum (covered s)
  noSync       : ∀ b ∈ covered s, b ≠ 0xB5
  matchedFirst : s.st = .haveChecksumA → s.ckA ≠ 0xB5

/-- A list of byte edges and idle edges, with no reset among them. -/
def NoReset (es : List Edge) : Prop := ∀ e ∈ es, e.rst = false

/-- The output with another class in its record, where it has one. -/
def Output.withCls (x : Byte) : Output → Output
  | .none => .none
  | .frame r => .frame { r with cls := x }
  | .overLength l => .overLength l

/-- Kind and fields of an output, where it is a record. -/
def Output.decoded : Output → Option (Kind × Fields)
  | .none => Option.none
  | .frame r => some (r.kind, r.fields)
  | .overLength _ => Option.none

end Sys2Proof.Machine
end

