-- ==== Sys2Proof/Certificates/Slice0/Obligations.lean ====
section
/-! DEFINITION. The statements for the provers. Each says which rule of spec/ it formalises, or, where it rests on a choice of
the model or on an inference or decision the spec marks as its own, which one. -/

open Sys2Proof Sys2Proof.Machine

/-! ## Encodings -/

/-- 30_encoding.md R84, R85, R90, R91: every well-formed instruction, with every operand its row admits, is read back from the
bytes of its selector. The byte layout is the model's choice (log 15), the value of don't-care bits too (log 10). -/
def Obligations.DecodeOfEncodedBytesIsTheInstruction : Prop :=
  ∀ i : Instr, i.wellFormed Config.hardware = true →
    decodeBytes Config.hardware (encode Config.hardware i).bytes = .ok i

/-- 40_sync.md R110: decoding the selector by match, mask and priority gives the operation of the chain, for each of the nine
states and 256 bytes and for any two sync bytes of the configuration (00_scope.md R5), and `feed` performs that one operation. -/
def Obligations.SelectorDecodesAsTheStepChain : Prop :=
  (∀ (c : Config) (st : SeqState) (b : Byte), decodeSB c (selectorSB st b) = .ok (chainOp c st b)) ∧
  ∀ (c : Config) (run : Executor) (s : State) (b : Byte), feed c run b s = run (chainOp c s.st b) s

/-- 30_encoding.md R86, R90 and 40_sync.md R114 (the spec's decision D10): whatever bytes are decoded, an operand is never
`0xB5`. -/
def Obligations.DecodedInstructionIsWellFormed : Prop :=
  ∀ (bytes : List Byte) (i : Instr), decodeBytes Config.hardware bytes = .ok i →
    i.wellFormed Config.hardware = true

/-- 10_state.md R31 and 30_encoding.md R95 (the spec's decision D9): the codes 9 to 15 name no state and no selector with one
is an encoding; a state register that holds one steps as `Idle` does, to `SawSync1` on `0xB5` and to `Idle` on any other byte. -/
def Obligations.StateCodesAboveEightActAsIdle : Prop :=
  ∀ (c : StCode) (b : Byte) (s : State), 9 ≤ c.toNat →
    SeqState.ofCode c = none ∧ decodeSB Config.hardware (c ++ b) = .error (.noSuchState c) ∧
    ∃ t, step (placeSB c b s) = .next t ∧ t.st = (if b = 0xB5 then .sawSync1 else .idle)

/-- 44_unpack_dispatch.md R196: `kind_of` is total, and format ID selects the kind decode of that kind. -/
def Obligations.IdSelectsTheKind : Prop :=
  (∀ i : Byte, decodeID i = .ok (kindInstr (kindOf i))) ∧
  kindOf 0x02 = .position ∧ kindOf 0x04 = .dop ∧ kindOf 0x12 = .velocity ∧ kindOf 0x06 = .status ∧
  ∀ i : Byte, i ≠ 0x02 → i ≠ 0x04 → i ≠ 0x12 → i ≠ 0x06 → kindOf i = .unhandled

/-- 30_encoding.md R86: the row that decodes is a matching row of the lowest priority number, in both formats; RESYNC has
priority 0, SYNC2 1, every other row of format SB 2, the four handled ids 0 and DEC_UNHANDLED 1; rows of equal priority never
overlap. -/
def Obligations.LowestPriorityMatchingRowDecodes : Prop :=
  (∀ (w : Nat) (rows : List (Row w)) (sel : BitVec w) (r : Row w), selectRow rows sel = some r →
    r ∈ rows ∧ r.hits sel = true ∧ ∀ q ∈ rows, q.hits sel = true → r.priority ≤ q.priority) ∧
  (∀ (w : Nat) (rows : List (Row w)) (sel : BitVec w), selectRow rows sel = none → ∀ q ∈ rows, q.hits sel = false) ∧
  (∀ (st : SeqState) (b : Byte), ∃ r, selectRow (sbRows Config.hardware) (selectorSB st b) = some r ∧
    decodeSB Config.hardware (selectorSB st b) = .ok (r.op.instr b)) ∧
  (∀ i : Byte, ∃ r, selectRow idRows i = some r ∧ decodeID i = .ok (r.op.instr i)) ∧
  (∀ r ∈ sbRows Config.hardware, r.priority = if r.op = .resync then 0 else if r.op = .sync2 then 1 else 2) ∧
  (∀ r ∈ idRows, r.priority = if r.op = .decUnhandled then 1 else 0) ∧
  (∀ r ∈ sbRows Config.hardware, ∀ q ∈ sbRows Config.hardware, ∀ sel : BitVec 12,
    r.priority = q.priority → r.hits sel = true → q.hits sel = true → r = q) ∧
  ∀ r ∈ idRows, ∀ q ∈ idRows, ∀ sel : BitVec 8, r.priority = q.priority → r.hits sel = true → q.hits sel = true → r = q

/-- 30_encoding.md R90, R91: a few selectors, written out from the opcode map. -/
def Obligations.SampleSelectorsDecode : Prop :=
  decodeTableWord 16 0x0B5 = some .resync ∧ decodeTableWord 16 0x8B5 = some .resync ∧
  decodeTableWord 16 0x162 = some .sync2 ∧ decodeTableWord 16 0x062 = some .ignoreIdle ∧
  decodeTableWord 16 0x100 = some .ignoreSync1 ∧ decodeTableWord 16 0x262 = some (.cls 0x62) ∧
  decodeTableWord 16 0x306 = some (.ident 0x06) ∧ decodeTableWord 16 0x404 = some (.lenlo 0x04) ∧
  decodeTableWord 16 0x503 = some (.lenhi 0x03) ∧ decodeTableWord 16 0x627 = some (.payload 0x27) ∧
  decodeTableWord 16 0x742 = some (.cka 0x42) ∧ decodeTableWord 16 0x8FF = some (.ckb 0xFF) ∧
  decodeTableWord 16 0x900 = none ∧
  decodeTableWord 8 0x02 = some .decPosition ∧ decodeTableWord 8 0x04 = some .decDop ∧
  decodeTableWord 8 0x12 = some .decVelocity ∧ decodeTableWord 8 0x06 = some .decStatus ∧
  decodeTableWord 8 0x30 = some .decUnhandled

/-! ## The step -/

/-- 40_sync.md R110 and 10_state.md R39 (ports are the spec's decision D6): at an edge with `rst` 0 and `in_valid` 1, the step
is the decoded instruction, performed on the state from which the edge has been taken and the last step's outputs cleared. And
00_scope.md R8, R13, 10_state.md R37: what it leaves in the block and puts out is `feed` of the block and the byte alone; the
edges still to come and the last step's outputs take no part. -/
def Obligations.StepOnAByteRunsTheDecodedInstruction : Prop :=
  (∀ (s : State) (e : Edge) (rest : List Edge) (i : Instr),
    s.inputs = e :: rest → e.rst = false → e.inValid = true →
    decodeSB Config.hardware (selectorSB s.st e.inByte) = .ok i →
    step s = exec i { s with inputs := rest, out := .none, unpacked := none, event := .none }) ∧
  ∀ (s : State) (e : Edge) (rest : List Edge) (blk : Block) (o : Output),
    s.inputs = e :: rest → e.rst = false → e.inValid = true →
    (feedBlock Config.hardware exec s.toBlock e.inByte = .next (blk, o) ↔
      ∃ t, step s = .next t ∧ t.toBlock = blk ∧ t.out = o ∧ t.inputs = rest)

/-- 10_state.md R39 and 70_reset_and_hazards.md R272 (the spec's decision D6): an edge with neither `rst` nor `in_valid`
changes no state and raises no strobe, whatever `in_byte` is; so does a step with no edge pending (the model's choice, log 1). -/
def Obligations.StepWithoutAByteChangesNothing : Prop :=
  (∀ (s : State) (e : Edge) (rest : List Edge), s.inputs = e :: rest → e.rst = false → e.inValid = false →
    ∃ t, step s = .next t ∧ t.st = s.st ∧ SameRegs s t ∧ SameCells s t ∧ t.inputs = rest ∧
      t.out.frameValid = false ∧ t.out.ovl = false ∧ t.event = .none) ∧
  ∀ s : State, s.inputs = [] →
    ∃ t, step s = .next t ∧ t.st = s.st ∧ SameRegs s t ∧ SameCells s t ∧ t.inputs = [] ∧
      t.out.frameValid = false ∧ t.out.ovl = false ∧ t.event = .none

/-- 10_state.md R46, 70_reset_and_hazards.md R260, 60_exceptions.md R230 (the spec's decision D3): an edge with `rst` 1 leaves
`Idle` whatever the byte inputs are, raises no strobe and no event, and leaves the draw in the other registers and cells: of
several draws for one cell the last counts, and a cell the draw does not name reads as the model's base value (log 4). -/
def Obligations.ResetEdgeLeavesIdleAndTheDraw : Prop :=
  ∀ (s : State) (e : Edge) (rest : List Edge), s.inputs = e :: rest → e.rst = true →
    ∃ t, step s = .next t ∧ t.st = .idle ∧ t.out.frameValid = false ∧ t.out.ovl = false ∧ t.event = .none ∧
      t.inputs = rest ∧ t.cls = e.draw.cls ∧ t.id = e.draw.id ∧ t.len = e.draw.len ∧ t.cnt = e.draw.cnt ∧
      t.ckA = e.draw.ckA ∧ t.ckB = e.draw.ckB ∧
      ∀ a, a < 1000 → Memory.cell t.buf a =
        match e.draw.cells.reverse.find? (fun c => c.1 == a) with
        | some c => c.2
        | none => Memory.unlisted a

/-- 10_state.md R45 (the spec's decision D3): a reset may leave any value whatever in the six registers, and any contents
whatever in the buffer. -/
def Obligations.AnyValuesCanFollowAReset : Prop :=
  ∀ (cls id ckA ckB : Byte) (len : LenReg) (cnt : CntReg) (m : Memory), Memory.wf m → Memory.inBounds 1000 m →
    ∃ d : Draw, ∀ rest,
      (State.resetWith Config.hardware d rest).cls = cls ∧ (State.resetWith Config.hardware d rest).id = id ∧
      (State.resetWith Config.hardware d rest).len = len ∧ (State.resetWith Config.hardware d rest).cnt = cnt ∧
      (State.resetWith Config.hardware d rest).ckA = ckA ∧ (State.resetWith Config.hardware d rest).ckB = ckB ∧
      (State.resetWith Config.hardware d rest).buf = m

/-- 10_state.md R46, R47 for `st` and the strobes. That the other registers and cells are zero in `State.reset` is the model's
choice (logs 3 and 4); they are one of the draws a reset may leave. -/
def Obligations.ResetStateIsIdleWithTheZeroDraw : Prop :=
  State.reset.st = .idle ∧ State.reset.out.frameValid = false ∧ State.reset.out.ovl = false ∧
  State.reset.inputs = [] ∧ State.reset = State.resetWith Config.hardware Draw.zero []

/-! ## The byte operations -/

/-- 40_sync.md R111: RESYNC is selected by `0xB5` in any state, writes `st` and nothing else; RESYNC_ABORT is raised in the seven states of a frame in progress. -/
def Obligations.ResyncWritesOnlyTheState : Prop :=
  (∀ (st : SeqState) (x : Byte), decodeSB Config.hardware (selectorSB st x) = .ok .resync ↔ x = 0xB5) ∧
  ∀ s : State, ∃ t, exec .resync s = .next t ∧ t.st = .sawSync1 ∧ SameRegs s t ∧ SameCells s t ∧ SameInputs s t ∧
    t.out = s.out ∧ t.event = (if s.st = .idle ∨ s.st = .sawSync1 then s.event else .resyncAbort)

/-- 40_sync.md R112: SYNC2, selected by `0x62` in `SawSync1` alone, goes to `SawSync2`, clears both accumulators and writes nothing else. -/
def Obligations.Sync2ClearsTheChecksum : Prop :=
  (∀ (st : SeqState) (x : Byte), decodeSB Config.hardware (selectorSB st x) = .ok .sync2 ↔ st = .sawSync1 ∧ x = 0x62) ∧
  ∀ s : State, ∃ t, exec .sync2 s = .next t ∧ t.st = .sawSync2 ∧ t.ckA = 0 ∧ t.ckB = 0 ∧
    t.cls = s.cls ∧ t.id = s.id ∧ t.len = s.len ∧ t.cnt = s.cnt ∧ SameCells s t ∧ SameInputs s t ∧
    t.out = s.out ∧ t.event = s.event

/-- 40_sync.md R113: when IGNORE is selected; in either of its states it writes nothing and raises only the label DESYNC_IGNORED. -/
def Obligations.IgnoreChangesNothing : Prop :=
  (∀ (st : SeqState) (x : Byte), decodeSB Config.hardware (selectorSB st x) = .ok .ignoreIdle ↔
    st = .idle ∧ x ≠ 0xB5) ∧
  (∀ (st : SeqState) (x : Byte), decodeSB Config.hardware (selectorSB st x) = .ok .ignoreSync1 ↔
    st = .sawSync1 ∧ x ≠ 0xB5 ∧ x ≠ 0x62) ∧
  ∀ (i : Instr) (s : State), i = .ignoreIdle ∨ i = .ignoreSync1 →
    ∃ t, exec i s = .next t ∧ t.st = s.st ∧ SameRegs s t ∧ SameCells s t ∧ SameInputs s t ∧
      t.out = s.out ∧ t.event = .desyncIgnored

/-- 41_header.md R130, with the checksum step of 43_checksum.md R170: CLASS records the byte and goes to `HaveClass`. -/
def Obligations.ClassRecordsTheByte : Prop :=
  (∀ (st : SeqState) (x b : Byte), decodeSB Config.hardware (selectorSB st x) = .ok (.cls b) ↔
    st = .sawSync2 ∧ x ≠ 0xB5 ∧ b = x) ∧
  ∀ (b : Byte) (s : State), ∃ t, exec (.cls b) s = .next t ∧ t.st = .haveClass ∧ t.cls = b ∧
    t.ckA.toNat = (s.ckA.toNat + b.toNat) % 256 ∧ t.ckB.toNat = (s.ckB.toNat + t.ckA.toNat) % 256 ∧
    t.id = s.id ∧ t.len = s.len ∧ t.cnt = s.cnt ∧ SameCells s t ∧ SameInputs s t ∧ t.out = s.out ∧ t.event = s.event

/-- 41_header.md R131: ID records the byte and goes to `HaveId`. -/
def Obligations.IdRecordsTheByte : Prop :=
  (∀ (st : SeqState) (x b : Byte), decodeSB Config.hardware (selectorSB st x) = .ok (.ident b) ↔
    st = .haveClass ∧ x ≠ 0xB5 ∧ b = x) ∧
  ∀ (b : Byte) (s : State), ∃ t, exec (.ident b) s = .next t ∧ t.st = .haveId ∧ t.id = b ∧
    t.ckA.toNat = (s.ckA.toNat + b.toNat) % 256 ∧ t.ckB.toNat = (s.ckB.toNat + t.ckA.toNat) % 256 ∧
    t.cls = s.cls ∧ t.len = s.len ∧ t.cnt = s.cnt ∧ SameCells s t ∧ SameInputs s t ∧ t.out = s.out ∧ t.event = s.event

/-- 41_header.md R132: LENLO writes all 16 bits of `len` with the zero-extended byte and goes to `HaveLengthLow`. -/
def Obligations.LenloReplacesTheWholeLength : Prop :=
  (∀ (st : SeqState) (x b : Byte), decodeSB Config.hardware (selectorSB st x) = .ok (.lenlo b) ↔
    st = .haveId ∧ x ≠ 0xB5 ∧ b = x) ∧
  ∀ (b : Byte) (s : State), ∃ t, exec (.lenlo b) s = .next t ∧ t.st = .haveLengthLow ∧ t.len.toNat = b.toNat ∧
    t.ckA.toNat = (s.ckA.toNat + b.toNat) % 256 ∧ t.ckB.toNat = (s.ckB.toNat + t.ckA.toNat) % 256 ∧
    t.cls = s.cls ∧ t.id = s.id ∧ t.cnt = s.cnt ∧ SameCells s t ∧ SameInputs s t ∧ t.out = s.out ∧ t.event = s.event

/-- 41_header.md R133, R134 (the spec's decisions D8 and D11): LENHI keeps bits 7:0 of `len` and replaces bits 15:8, clears
`cnt` and updates the checksum on all three outcomes; above the capacity it rejects with `OverLength`, a length of zero goes
to the checksum, any other length to the payload. -/
def Obligations.LenhiSplitsThreeWays : Prop :=
  (∀ (st : SeqState) (x b : Byte), decodeSB Config.hardware (selectorSB st x) = .ok (.lenhi b) ↔
    st = .haveLengthLow ∧ x ≠ 0xB5 ∧ b = x) ∧
  ∀ (b : Byte) (s : State), ∃ t, exec (.lenhi b) s = .next t ∧
    t.len.toNat = s.len.toNat % 256 + 256 * b.toNat ∧ t.cnt = 0 ∧
    t.ckA.toNat = (s.ckA.toNat + b.toNat) % 256 ∧ t.ckB.toNat = (s.ckB.toNat + t.ckA.toNat) % 256 ∧
    t.cls = s.cls ∧ t.id = s.id ∧ SameCells s t ∧ SameInputs s t ∧
    (1000 < t.len.toNat → t.st = .idle ∧ t.out = .overLength t.len ∧ t.event = .overlength) ∧
    (t.len.toNat = 0 → t.st = .havePayload ∧ t.out = s.out ∧ t.event = s.event) ∧
    (0 < t.len.toNat → t.len.toNat ≤ 1000 → t.st = .haveLengthHigh ∧ t.out = s.out ∧ t.event = s.event)

/-- 42_payload.md R150: PAYLOAD stores the byte at the old `cnt` and nowhere else, counts it, updates the checksum, and goes
to `HavePayload` exactly when the new count equals `len`. The hypothesis is R150 (c). -/
def Obligations.PayloadStoresOneByteAtTheOldCount : Prop :=
  (∀ (st : SeqState) (x b : Byte), decodeSB Config.hardware (selectorSB st x) = .ok (.payload b) ↔
    st = .haveLengthHigh ∧ x ≠ 0xB5 ∧ b = x) ∧
  ∀ (b : Byte) (s : State), s.cnt.toNat < 1000 → ∃ t, exec (.payload b) s = .next t ∧
    Memory.cell t.buf (payloadIndex s) = b ∧
    (∀ a, a ≠ payloadIndex s → Memory.cell t.buf a = Memory.cell s.buf a) ∧
    t.cnt.toNat = s.cnt.toNat + 1 ∧
    t.st = (if s.cnt.toNat + 1 = s.len.toNat then .havePayload else .haveLengthHigh) ∧
    t.ckA.toNat = (s.ckA.toNat + b.toNat) % 256 ∧ t.ckB.toNat = (s.ckB.toNat + t.ckA.toNat) % 256 ∧
    t.cls = s.cls ∧ t.id = s.id ∧ t.len = s.len ∧ SameInputs s t ∧ t.out = s.out ∧ t.event = s.event

/-- 42_payload.md R154, 93_implementation_defined.md K1: no write at an index at or above the capacity has a meaning; the
model stops there (its choice of a fault, log 8). -/
def Obligations.PayloadStopsOutsideTheBuffer : Prop :=
  ∀ (b : Byte) (s : State), 1000 ≤ s.cnt.toNat → exec (.payload b) s = .fault (.outsideBuffer s.cnt.toNat)

/-- 43_checksum.md R174: CKA compares the byte with `ckA`, writes only `st`, and raises CKA_MISMATCH on inequality. -/
def Obligations.CkaComparesTheFirstByte : Prop :=
  (∀ (st : SeqState) (x b : Byte), decodeSB Config.hardware (selectorSB st x) = .ok (.cka b) ↔
    st = .havePayload ∧ x ≠ 0xB5 ∧ b = x) ∧
  ∀ (b : Byte) (s : State), ∃ t, exec (.cka b) s = .next t ∧
    t.st = (if b = s.ckA then .haveChecksumA else .idle) ∧
    t.event = (if b = s.ckA then s.event else .ckaMismatch) ∧
    SameRegs s t ∧ SameCells s t ∧ SameInputs s t ∧ t.out = s.out

/-- 43_checksum.md R175 and 44_unpack_dispatch.md R200: CKB completes in every state and writes only `st`; on a match its output
is the record of the registers and of `buf[0 .. len-1]`, with the one kind of `id` and that kind's fields; otherwise
CKB_MISMATCH. -/
def Obligations.CkbDeliversTheRecordOnAMatch : Prop :=
  (∀ (st : SeqState) (x b : Byte), decodeSB Config.hardware (selectorSB st x) = .ok (.ckb b) ↔
    st = .haveChecksumA ∧ x ≠ 0xB5 ∧ b = x) ∧
  ∀ (b : Byte) (s : State),
    (b ≠ s.ckB → ∃ t, exec (.ckb b) s = .next t ∧ t.st = .idle ∧ t.event = .ckbMismatch ∧ t.out = s.out ∧
      SameRegs s t ∧ SameCells s t ∧ SameInputs s t) ∧
    (b = s.ckB → ∃ t r, exec (.ckb b) s = .next t ∧ t.st = .idle ∧ t.out = .frame r ∧
      SameRegs s t ∧ SameCells s t ∧ t.inputs = s.inputs ∧
      t.event = (if kindOf s.id = .unhandled then .unhandledId else s.event) ∧ IsRecordOf s r)

/-- 00_scope.md R8 and 40_sync.md R118 (the spec's inference): `feed` is total. From every block and for every byte it
answers, but for the one write that does not exist (42_payload.md R154): a payload byte with `cnt` at or above the capacity, in
no reachable state. In particular a matching second checksum byte delivers even where `len` exceeds the capacity; the bytes of
that record at the indices without a cell are free values (log 8). -/
def Obligations.FeedIsTotalButForTheAbsentWrite : Prop :=
  (∀ (blk : Block) (b : Byte), ¬ (blk.st = .haveLengthHigh ∧ b ≠ 0xB5 ∧ 1000 ≤ blk.cnt.toNat) →
    ∃ r, feedBlock Config.hardware exec blk b = .next r) ∧
  ∀ (blk : Block) (b : Byte), blk.st = .haveChecksumA → b ≠ 0xB5 → b = blk.ckB →
    ∃ r, feedBlock Config.hardware exec blk b = .next ({ blk with st := .idle }, .frame r) ∧ r.len = blk.len ∧
      r.payload.length = blk.len.toNat

/-! ## The kind decodes -/

/-- 44_unpack_dispatch.md R204 (signed fields in two's complement: the spec's K5, R194): DEC_POSITION reads the seven fields
from the cells as they stand and writes nothing else. -/
def Obligations.DecPositionReadsItsFields : Prop :=
  (∀ i : Byte, decodeID i = .ok .decPosition ↔ i = 0x02) ∧
  ∀ s : State, ∃ t f, exec .decPosition s = .next t ∧ t.unpacked = some (.position f) ∧
    f.iTOW.toNat = leSum s.buf 0 4 ∧ f.lon = signedN 32 (leSum s.buf 4 4) ∧ f.lat = signedN 32 (leSum s.buf 8 4) ∧
    f.height = signedN 32 (leSum s.buf 12 4) ∧ f.heightMSL = signedN 32 (leSum s.buf 16 4) ∧
    f.hAcc.toNat = leSum s.buf 20 4 ∧ f.vAcc.toNat = leSum s.buf 24 4 ∧
    t.st = s.st ∧ SameRegs s t ∧ SameCells s t ∧ t.inputs = s.inputs ∧ t.out = s.out ∧ t.event = s.event

/-- 44_unpack_dispatch.md R205: DEC_DOP. -/
def Obligations.DecDopReadsItsFields : Prop :=
  (∀ i : Byte, decodeID i = .ok .decDop ↔ i = 0x04) ∧
  ∀ s : State, ∃ t f, exec .decDop s = .next t ∧ t.unpacked = some (.dop f) ∧
    f.iTOW.toNat = leSum s.buf 0 4 ∧ f.gDOP.toNat = leSum s.buf 4 2 ∧ f.pDOP.toNat = leSum s.buf 6 2 ∧
    f.tDOP.toNat = leSum s.buf 8 2 ∧ f.vDOP.toNat = leSum s.buf 10 2 ∧ f.hDOP.toNat = leSum s.buf 12 2 ∧
    f.nDOP.toNat = leSum s.buf 14 2 ∧ f.eDOP.toNat = leSum s.buf 16 2 ∧
    t.st = s.st ∧ SameRegs s t ∧ SameCells s t ∧ t.inputs = s.inputs ∧ t.out = s.out ∧ t.event = s.event

/-- 44_unpack_dispatch.md R206 (signed fields in two's complement: the spec's K5, R194): DEC_VELOCITY. -/
def Obligations.DecVelocityReadsItsFields : Prop :=
  (∀ i : Byte, decodeID i = .ok .decVelocity ↔ i = 0x12) ∧
  ∀ s : State, ∃ t f, exec .decVelocity s = .next t ∧ t.unpacked = some (.velocity f) ∧
    f.iTOW.toNat = leSum s.buf 0 4 ∧ f.velN = signedN 32 (leSum s.buf 4 4) ∧ f.velE = signedN 32 (leSum s.buf 8 4) ∧
    f.velD = signedN 32 (leSum s.buf 12 4) ∧ f.speed.toNat = leSum s.buf 16 4 ∧
    f.groundSpeed.toNat = leSum s.buf 20 4 ∧ f.heading = signedN 32 (leSum s.buf 24 4) ∧
    f.speedAcc.toNat = leSum s.buf 28 4 ∧ f.headingAcc.toNat = leSum s.buf 32 4 ∧
    t.st = s.st ∧ SameRegs s t ∧ SameCells s t ∧ t.inputs = s.inputs ∧ t.out = s.out ∧ t.event = s.event

/-- 44_unpack_dispatch.md R207: DEC_STATUS. -/
def Obligations.DecStatusReadsItsField : Prop :=
  (∀ i : Byte, decodeID i = .ok .decStatus ↔ i = 0x06) ∧
  ∀ s : State, ∃ t f, exec .decStatus s = .next t ∧ t.unpacked = some (.status f) ∧ f.iTOW.toNat = leSum s.buf 0 4 ∧
    t.st = s.st ∧ SameRegs s t ∧ SameCells s t ∧ t.inputs = s.inputs ∧ t.out = s.out ∧ t.event = s.event

/-- 44_unpack_dispatch.md R208: DEC_UNHANDLED, selected by every id but the four, decodes no field and raises the label
UNHANDLED_ID; a frame with such an id is delivered, with the raw id and kind 4. -/
def Obligations.DecUnhandledDecodesNoField : Prop :=
  (∀ i : Byte, decodeID i = .ok .decUnhandled ↔ i ≠ 0x02 ∧ i ≠ 0x04 ∧ i ≠ 0x12 ∧ i ≠ 0x06) ∧
  (∀ s : State, ∃ t, exec .decUnhandled s = .next t ∧ t.unpacked = some .unhandled ∧ t.event = .unhandledId ∧
    t.st = s.st ∧ SameRegs s t ∧ SameCells s t ∧ t.inputs = s.inputs ∧ t.out = s.out) ∧
  ∀ s : State, decodeID s.id = .ok .decUnhandled → ∃ t r, exec (.ckb s.ckB) s = .next t ∧
    t.out = .frame r ∧ r.id = s.id ∧ r.cls = s.cls ∧ r.len = s.len ∧
    PayloadOf s r.payload ∧ r.fields = .unhandled ∧ t.event = .unhandledId ∧
    t.out.ports.frameValid = true ∧ t.out.ports.msgKind = some 4

/-- 30_encoding.md R85 and 44_unpack_dispatch.md R200: a delivering CKB runs, in its own step, the kind decode that the `id`
register selects, and the record it puts out carries what that decode drove. How a kind decode stands in a step is the model's
choice (log 9). -/
def Obligations.DeliveringCkbRunsTheSelectedKindDecode : Prop :=
  ∀ (s : State), ∃ (i : Instr) (u t : State) (r : FrameRecord),
    decodeID s.id = .ok i ∧ exec i { s with st := .idle } = .next u ∧
      exec (.ckb s.ckB) s = .next t ∧ t = { u with out := .frame r } ∧ u.unpacked = some r.fields

/-! ## Operands, fields and the checksum -/

/-- 44_unpack_dispatch.md R190: `LE(o, w)` is `MemRead(o, w)`, `buf[o] + 256*buf[o+1] (+ 65536*buf[o+2] + 16777216*buf[o+3])`,
at any offset (aligned or not) for which `o + w <= CAP`, at any capacity. -/
def Obligations.LittleEndianReadIsTheSumOfItsBytes : Prop :=
  ∀ (c : Config) (m : Memory) (o : Nat),
    (o + 2 ≤ c.cap → memRead c m o 2 = some (le16 m o).toNat ∧
      (le16 m o).toNat = (Memory.cell m o).toNat + 256 * (Memory.cell m (o + 1)).toNat) ∧
    (o + 4 ≤ c.cap → memRead c m o 4 = some (le32 m o).toNat ∧
      (le32 m o).toNat = (Memory.cell m o).toNat + 256 * (Memory.cell m (o + 1)).toNat +
        65536 * (Memory.cell m (o + 2)).toNat + 16777216 * (Memory.cell m (o + 3)).toNat)

/-- 44_unpack_dispatch.md R191 (the spec's inference from R190): shifting and OR-ing from the most significant byte down gives
the little-endian sum, for every width and every buffer content. -/
def Obligations.AccumulationFromTheTopEqualsTheSum : Prop :=
  ∀ (m : Memory) (o w : Nat), accumulate m o w 0 = leSum m o w

/-- 44_unpack_dispatch.md R194, 00_scope.md R9 (two's complement is the spec's general knowledge K5): a signed field is
`signed_32` of the unsigned read, hence in the 32-bit range, and its bus pattern is the unsigned read's. -/
def Obligations.SignedFieldIsTwosComplement : Prop :=
  ∀ (m : Memory) (o : Nat), fieldI32 m o = signedN 32 (fieldU32 m o).toNat ∧
    -2147483648 ≤ fieldI32 m o ∧ fieldI32 m o ≤ 2147483647 ∧ BitVec.ofInt 32 (fieldI32 m o) = fieldU32 m o ∧
    fieldI16 m o = signedN 16 (fieldU16 m o).toNat

/-- 44_unpack_dispatch.md R201 (the spec's decision D2) against the schema table of R198: slot `k` of the bus is the read the
table's row `k` names, zero-extended, and 0 where the kind has no such row. -/
def Obligations.FieldBusFollowsTheSchemaTable : Prop :=
  ∀ (k : Kind) (m : Memory) (j : Fin Config.hardware.nslot),
    (fieldsOf k m).bus[j] =
      match (Config.schema k)[j.val]? with
      | some f => BitVec.ofNat 32 (leSum m f.offset f.ty.width)
      | none => 0

/-- 44_unpack_dispatch.md R198, R203 (`need` is the spec's inference, 91 N16): a kind's fields are determined by the first
`need` cells, of 28, 18, 36, 4 and 0, and every one of those cells matters: another byte in it gives other fields. -/
def Obligations.FieldsReadExactlyTheNeededCells : Prop :=
  Config.need .position = 28 ∧ Config.need .dop = 18 ∧ Config.need .velocity = 36 ∧ Config.need .status = 4 ∧
  Config.need .unhandled = 0 ∧
  (∀ (k : Kind) (m m' : Memory), (∀ a, a < Config.need k → Memory.cell m a = Memory.cell m' a) →
    fieldsOf k m = fieldsOf k m') ∧
  ∀ (k : Kind) (m : Memory) (a : Nat) (b : Byte), a < Config.need k → b ≠ Memory.cell m a →
    fieldsOf k (Memory.store m a b) ≠ fieldsOf k m

/-- 43_checksum.md R170: both additions are modulo 256, and the second takes the new `ckA`; nothing else is written. The update
is made once, with the operation's byte, by CLASS, ID, LENLO, LENHI and PAYLOAD, and by no other operation; of the others only
SYNC2 writes an accumulator. -/
def Obligations.ChecksumUpdateAddsModulo256 : Prop :=
  (∀ (b : Byte) (s : State), (ckUpdate b s).ckA.toNat = (s.ckA.toNat + b.toNat) % 256 ∧
    (ckUpdate b s).ckB.toNat = (s.ckB.toNat + (ckUpdate b s).ckA.toNat) % 256 ∧
    ckUpdate b s = { s with ckA := (ckUpdate b s).ckA, ckB := (ckUpdate b s).ckB }) ∧
  ∀ (i : Instr) (s t : State), exec i s = .next t →
    (∀ b, checksumByte i = some b → t.ckA = (ckUpdate b s).ckA ∧ t.ckB = (ckUpdate b s).ckB) ∧
    (checksumByte i = none → i ≠ .sync2 → t.ckA = s.ckA ∧ t.ckB = s.ckB)

/-- 43_checksum.md R172 (the spec's inference from R170): the checksum of any byte sequence in closed form. -/
def Obligations.ChecksumHasItsClosedForm : Prop :=
  ∀ bs : List Byte, (ckSum bs).1.toNat = (bs.map BitVec.toNat).sum % 256 ∧
    (ckSum bs).2.toNat = (bs.mapIdx (fun i d => (bs.length - i) * d.toNat)).sum % 256

/-- 43_checksum.md R172 (the spec's inference): `A` does not depend on the order of the bytes; `B` does. -/
def Obligations.OnlyTheSecondSumDependsOnTheOrder : Prop :=
  (∀ bs cs : List Byte, bs.Perm cs → (ckSum bs).1 = (ckSum cs).1) ∧
  ∀ (bs : List Byte) (x y : Byte) (cs : List Byte), x ≠ y →
    (ckSum (bs ++ x :: y :: cs)).2 ≠ (ckSum (bs ++ y :: x :: cs)).2

/-- 43_checksum.md R176 (the spec's inference): one corrupted byte always alters `A`. -/
def Obligations.OneCorruptedByteAltersTheFirstSum : Prop :=
  ∀ (bs cs : List Byte) (x y : Byte), x ≠ y → (ckSum (bs ++ x :: cs)).1 ≠ (ckSum (bs ++ y :: cs)).1

/-! ## Whole-machine rules -/

/-- 10_state.md R27 (the spec's inference from the operations' rules): an operation not named for a piece of state does not
write it. -/
def Obligations.OnlyTheNamedOperationsWriteEachRegister : Prop :=
  ∀ (i : Instr) (s t : State), exec i s = .next t →
    (t.cls ≠ s.cls → ∃ b, i = .cls b) ∧ (t.id ≠ s.id → ∃ b, i = .ident b) ∧
    (t.len ≠ s.len → ∃ b, i = .lenlo b ∨ i = .lenhi b) ∧ (t.cnt ≠ s.cnt → ∃ b, i = .lenhi b ∨ i = .payload b) ∧
    ((t.ckA, t.ckB) ≠ (s.ckA, s.ckB) →
      i = .sync2 ∨ ∃ b, i = .cls b ∨ i = .ident b ∨ i = .lenlo b ∨ i = .lenhi b ∨ i = .payload b) ∧
    (∀ a, Memory.cell t.buf a ≠ Memory.cell s.buf a → ∃ b, i = .payload b ∧ a = s.cnt.toNat) ∧
    (t.out ≠ s.out → ∃ b, i = .lenhi b ∨ i = .ckb b) ∧
    (t.st ≠ s.st → i ≠ .ignoreIdle ∧ i ≠ .ignoreSync1 ∧ ∀ k, i ≠ kindInstr k) ∧
    t.inputs = s.inputs

/-- 40_sync.md R117: a step with a byte completes, and every column of the next-state table holds of it: the operation, the
state after, the register and cell writes, and the output. The hypothesis on `cnt` holds in every reachable state (10_state.md
R38). -/
def Obligations.StepFollowsTheNextStateTable : Prop :=
  ∀ (s : State) (e : Edge) (rest : List Edge), s.inputs = e :: rest → e.rst = false → e.inValid = true →
    (s.st = .haveLengthHigh → s.cnt.toNat < 1000) →
    decodeSB Config.hardware (selectorSB s.st e.inByte) = .ok (chainOp Config.hardware s.st e.inByte) ∧
    ∃ t, step s = .next t ∧ t.inputs = rest ∧ t.st = tableNext s e.inByte ∧
      t.cls = (if s.st = .sawSync2 ∧ e.inByte ≠ 0xB5 then e.inByte else s.cls) ∧
      t.id = (if s.st = .haveClass ∧ e.inByte ≠ 0xB5 then e.inByte else s.id) ∧
      t.len.toNat = (if s.st = .haveId ∧ e.inByte ≠ 0xB5 then e.inByte.toNat
        else if s.st = .haveLengthLow ∧ e.inByte ≠ 0xB5 then declaredLen s e.inByte else s.len.toNat) ∧
      t.cnt.toNat = (if s.st = .haveLengthLow ∧ e.inByte ≠ 0xB5 then 0
        else if s.st = .haveLengthHigh ∧ e.inByte ≠ 0xB5 then s.cnt.toNat + 1 else s.cnt.toNat) ∧
      (t.ckA, t.ckB) = (if s.st = .sawSync1 ∧ e.inByte = 0x62 then (0, 0)
        else if 2 ≤ SeqState.rank s.st ∧ SeqState.rank s.st ≤ 6 ∧ e.inByte ≠ 0xB5 then
          (s.ckA + e.inByte, s.ckB + (s.ckA + e.inByte)) else (s.ckA, s.ckB)) ∧
      (∀ a, Memory.cell t.buf a =
        if s.st = .haveLengthHigh ∧ e.inByte ≠ 0xB5 ∧ a = s.cnt.toNat then e.inByte else Memory.cell s.buf a) ∧
      (if s.st = .haveLengthLow ∧ e.inByte ≠ 0xB5 ∧ 1000 < declaredLen s e.inByte then t.out = .overLength t.len
        else if s.st = .haveChecksumA ∧ e.inByte ≠ 0xB5 ∧ e.inByte = s.ckB then
          ∃ r, t.out = .frame r ∧ IsRecordOf s r
        else t.out = .none)

/-- 60_exceptions.md R220 (names and codes are the spec's decision D17): the event of a step with a byte. -/
def Obligations.StepEventsFollowTheEventTable : Prop :=
  ∀ (s t : State) (e : Edge) (rest : List Edge), s.inputs = e :: rest → e.rst = false → e.inValid = true →
    step s = .next t → t.event = tableEvent s e.inByte

/-- 40_sync.md R115 (the spec's inference from R117): a step with a byte stays, goes to the next state in the order, skips
`HaveLengthHigh` when the declared length is zero, or ends the frame: to `SawSync1` on `0xB5`, to `Idle` from the states that
end a frame. -/
def Obligations.StateMovesForwardOrEndsTheFrame : Prop :=
  ∀ (s t : State) (e : Edge) (rest : List Edge), s.inputs = e :: rest → e.rst = false → e.inValid = true →
    step s = .next t →
    (t.st = s.st ∧ (s.st = .idle ∨ s.st = .sawSync1 ∨ s.st = .haveLengthHigh)) ∨
    SeqState.rank t.st = SeqState.rank s.st + 1 ∨
    (s.st = .haveLengthLow ∧ t.st = .havePayload ∧ declaredLen s e.inByte = 0) ∨
    (t.st = .sawSync1 ∧ e.inByte = 0xB5) ∨
    (t.st = .idle ∧ (s.st = .haveChecksumA ∨ (s.st = .havePayload ∧ e.inByte ≠ s.ckA) ∨
      (s.st = .haveLengthLow ∧ 1000 < declaredLen s e.inByte)))

/-- 10_state.md R38 (the spec's inference by induction), with the canonical form of the buffer, the premise of 41_header.md
R135 and 40_sync.md R114 (the spec's decision D10): every step keeps the invariant, from every state that has it. -/
def Obligations.EveryStepKeepsTheInvariant : Prop :=
  ∀ s t : State, Inv s → step s = .next t → Inv t

/-- 10_state.md R38, R45: every reset leaves the invariant, whatever its draw; so does `State.reset`, whose zero draw is the
model's choice (logs 3 and 4). -/
def Obligations.EveryResetHasTheInvariant : Prop :=
  (∀ (d : Draw) (rest : List Edge), Inv (State.resetWith Config.hardware d rest)) ∧ Inv State.reset

/-- 40_sync.md R118 and 20_memory.md R59 (the spec's inferences): no run from a state with the invariant ever faults or
refuses, for any input, and its states keep the invariant. -/
def Obligations.NoRunEverStops : Prop :=
  ∀ (n : Nat) (s : State), Inv s → ∃ t, runFrom n s = .next t ∧ Inv t

/-- 10_state.md R38 (a) to (c) at every capacity of 00_scope.md R6 (the spec's decision D4: a claim should quantify over `CAP`):
every reset has the length bounds, and from every state with them, for any input, a step of the block built with that capacity
completes and keeps them, so no PAYLOAD leaves the buffer; LENHI establishes them from any state. At this hardware's
configuration that step is `step`. -/
def Obligations.LengthBoundsHoldAtEveryCapacity : Prop :=
  (∀ (c : Config), c.wf →
    (∀ (d : Draw) (rest : List Edge), LengthInv c (State.resetWith c d rest)) ∧
    (∀ s : State, LengthInv c s → ∃ t, stepAt c s = .next t ∧ LengthInv c t) ∧
    (∀ (b : Byte) (s : State), LengthInv c (lenhi c b s)) ∧
    ∀ (b : Byte) (s : State), LengthInv c s → s.st = .haveLengthHigh → ∃ t, payload c b s = .next t ∧
      Memory.cell t.buf s.cnt.toNat = b ∧ ∀ a, a ≠ s.cnt.toNat → Memory.cell t.buf a = Memory.cell s.buf a) ∧
  ∀ s : State, stepAt Config.hardware s = step s

/-- 40_sync.md R116 (the spec's inference): from EVERY state, feeding a clean frame puts out nothing at each of its first
`L+7` bytes and its record at the last, in `Idle`. The record's fields are those of the frame's own payload when the payload
reaches the schema's `need` (44_unpack_dispatch.md R203). -/
def Obligations.EveryCleanFrameIsDelivered : Prop :=
  ∀ (s : State) (cls id : Byte) (p : List Byte) (rest : List Edge), CleanFrame cls id p →
    s.inputs = edgesOf (frameBytes cls id p) ++ rest →
    (∀ k, 1 ≤ k → k ≤ p.length + 7 → ∃ t, runFrom k s = .next t ∧ t.out = .none) ∧
    ∃ t r, runFrom (p.length + 8) s = .next t ∧ t.out = .frame r ∧ t.st = .idle ∧ t.inputs = rest ∧
      r.cls = cls ∧ r.id = id ∧ r.len.toNat = p.length ∧ r.payload = p ∧ r.kind = kindOf id ∧
      (Config.need (kindOf id) ≤ p.length →
        r.fields = fieldsOf (kindOf id) (Memory.ofCells 1000 (p.mapIdx fun i b => (i, b))))

/-- 70_reset_and_hazards.md R264, 43_checksum.md R176 (the spec's inferences): whatever the stream, a record is put out only
for a clean frame, with its declared length its payload's, and only at the step whose byte is that frame's second checksum
byte. -/
def Obligations.EveryDeliveredFrameIsClean : Prop :=
  ∀ (s t : State) (r : FrameRecord), Inv s → step s = .next t → t.out = .frame r →
    CleanFrame r.cls r.id r.payload ∧ r.len.toNat = r.payload.length ∧ s.st = .haveChecksumA ∧
    s.ckA = (ckSum (coveredBytes r.cls r.id r.payload)).1 ∧
    ∃ e rest, s.inputs = e :: rest ∧ e.rst = false ∧ e.inValid = true ∧
      e.inByte = (ckSum (coveredBytes r.cls r.id r.payload)).2

/-- 44_unpack_dispatch.md R199: whatever the state, a delivered frame has exactly one kind, that of its id, and carries exactly
that kind's fields, read from the cells as they stand in that step. -/
def Obligations.DeliveredFrameHasExactlyItsKindsFields : Prop :=
  ∀ (s t : State) (r : FrameRecord), step s = .next t → t.out = .frame r →
    r.kind = kindOf r.id ∧ r.fields.kind = r.kind ∧ ValueColumn t.buf r.fields

/-- The source's property "Checksum rejection" (95_test_vectors.md, L1) with 43_checksum.md R176: from every state, a clean
frame one of whose payload bytes has been replaced (by a byte that is not `0xB5`) puts out nothing at any of its bytes, and
leaves `Idle`. -/
def Obligations.OneCorruptedPayloadByteIsRejected : Prop :=
  ∀ (s : State) (cls id x y : Byte) (p q : List Byte) (rest : List Edge), CleanFrame cls id (p ++ x :: q) →
    x ≠ y → y ≠ 0xB5 →
    s.inputs = edgesOf (wireFrame cls id (p ++ y :: q) (ckSum (coveredBytes cls id (p ++ x :: q)))) ++ rest →
    (∀ k, 1 ≤ k → k ≤ (p ++ x :: q).length + 8 → ∃ t, runFrom k s = .next t ∧ t.out = .none) ∧
    ∃ t, runFrom ((p ++ x :: q).length + 8) s = .next t ∧ t.st = .idle ∧ t.inputs = rest

/-- 40_sync.md R118 (the spec's inference): from any state, the two bytes `B5 62` lead to `SawSync2` with a clear checksum. -/
def Obligations.TwoSyncBytesReachSawSync2 : Prop :=
  ∀ (s : State) (rest : List Edge), s.inputs = edgesOf [0xB5, 0x62] ++ rest →
    ∃ t, runFrom 2 s = .next t ∧ t.st = .sawSync2 ∧ t.ckA = 0 ∧ t.ckB = 0 ∧ t.inputs = rest

/-- 70_reset_and_hazards.md R265 (the spec's inference): in `SawSync1` any number of bytes that are neither `0xB5` nor `0x62`
leave the state and every register and cell alone, and a `0x62` after them completes the synchronisation. -/
def Obligations.LooseSyncSkipsOtherBytes : Prop :=
  ∀ (s : State) (bs : List Byte) (rest : List Edge), s.st = .sawSync1 → (∀ b ∈ bs, b ≠ 0xB5 ∧ b ≠ 0x62) →
    s.inputs = edgesOf (bs ++ [0x62]) ++ rest →
    (∃ t, runFrom bs.length s = .next t ∧ t.st = .sawSync1 ∧ SameRegs s t ∧ SameCells s t) ∧
    ∃ t, runFrom (bs.length + 1) s = .next t ∧ t.st = .sawSync2 ∧ t.ckA = 0 ∧ t.ckB = 0 ∧
      t.cls = s.cls ∧ t.id = s.id ∧ t.len = s.len ∧ t.cnt = s.cnt ∧ SameCells s t ∧ t.inputs = rest

/-- 10_state.md R44, 70_reset_and_hazards.md R270 (the spec's inferences): after a step that leaves `Idle`, as a delivery does,
`cls` keeps its value for the next two steps, `id` for three, `len` for four and `buf[a]` for `6 + a`, if no reset comes. -/
def Obligations.DeliveredValuesStayForTheWindow : Prop :=
  ∀ (n : Nat) (s t : State), s.st = .idle → NoReset (s.inputs.take n) → runFrom n s = .next t →
    (n ≤ 2 → t.cls = s.cls) ∧ (n ≤ 3 → t.id = s.id) ∧ (n ≤ 4 → t.len = s.len) ∧
    ∀ a, n ≤ 6 + a → Memory.cell t.buf a = Memory.cell s.buf a

/-- 10_state.md R45 (the spec's inference): the draw of the six registers is never observable. Two runs on the same input, from
resets that draw the same cells, agree at every step on the output, the event, the state and every cell. -/
def Obligations.RegisterDrawIsNeverObserved : Prop :=
  ∀ (d d' : Draw) (es : List Edge) (n : Nat) (t : State), d.cells = d'.cells →
    runFrom n (State.resetWith Config.hardware d es) = .next t →
    ∃ t', runFrom n (State.resetWith Config.hardware d' es) = .next t' ∧ t'.st = t.st ∧ t'.out = t.out ∧ t'.event = t.event ∧
      t'.unpacked = t.unpacked ∧ SameCells t t'

/-- 44_unpack_dispatch.md R197 (the spec's decision D15): the class decides nothing. Two steps from states that differ in `cls`
alone end alike, except for `cls` itself and the record's copy of it. -/
def Obligations.ClassInfluencesNothing : Prop :=
  ∀ (s t : State) (x : Byte), step s = .next t →
    ∃ t', step { s with cls := x } = .next t' ∧ t'.st = t.st ∧ t'.id = t.id ∧ t'.len = t.len ∧ t'.cnt = t.cnt ∧
      t'.ckA = t.ckA ∧ t'.ckB = t.ckB ∧ t'.buf = t.buf ∧ t'.event = t.event ∧ t'.unpacked = t.unpacked ∧
      t'.inputs = t.inputs ∧ t'.out = t.out.withCls x

/-- 10_state.md R40, R41, R43 (ports are the spec's decisions D6 and D8): the strobes are never both 1, `frame_valid` is 1
exactly in a step with a CKB byte that matched, `ovl` exactly in a step with a LENHI byte above the capacity, and the ports
then carry the record, or the rejected length. -/
def Obligations.StrobesMarkDeliveryAndRejection : Prop :=
  (∀ o : Output, ¬ (o.ports.frameValid = true ∧ o.ports.ovl = true)) ∧
  (∀ r : FrameRecord, Output.ports (.frame r) =
    ⟨true, false, some r.cls, some r.id, some r.len, some (Kind.code r.kind), some r.fields.bus⟩) ∧
  (∀ l : LenReg, (Output.ports (.overLength l)).ovl = true ∧ (Output.ports (.overLength l)).msgLen = some l) ∧
  ∀ (s t : State), step s = .next t →
    (t.out.ports.frameValid = true ↔ ∃ e rest, s.inputs = e :: rest ∧ e.rst = false ∧ e.inValid = true ∧
      s.st = .haveChecksumA ∧ e.inByte ≠ 0xB5 ∧ e.inByte = s.ckB) ∧
    (t.out.ports.ovl = true ↔ ∃ e rest, s.inputs = e :: rest ∧ e.rst = false ∧ e.inValid = true ∧
      s.st = .haveLengthLow ∧ e.inByte ≠ 0xB5 ∧ 1000 < declaredLen s e.inByte)

/-- 10_state.md R44, 44_unpack_dispatch.md R201 (the spec's inference and its decision D2): `msg_kind` and the field bus are
combinational in `id` and `buf`; after a delivery they show the record's kind and fields. -/
def Obligations.RecordOutputsFollowIdAndBuffer : Prop :=
  (∀ (s t : State) (r : FrameRecord), step s = .next t → t.out = .frame r →
    liveKind t = Kind.code r.kind ∧ liveFields t = r.fields.bus) ∧
  ∀ (s t : State), s.id = t.id → SameCells s t → liveKind s = liveKind t ∧ liveFields s = liveFields t

/-- 10_state.md R40 (0 out of range is the spec's decision D7): the read port, at every capacity. -/
def Obligations.ReadPortReadsTheBuffer : Prop :=
  ∀ (c : Config) (s : State) (i : Half), (i.toNat < c.cap → readPort c s i = Memory.cell s.buf i.toNat) ∧
    (c.cap ≤ i.toNat → readPort c s i = 0)

/-- 30_encoding.md R100 (the spec's inference, the inverse of 20_memory.md R52): a field reads back what its pseudo-instruction
expands to. The `i32` clause rests on the two's complement reading of 44_unpack_dispatch.md R194 and 00_scope.md R9, which the
spec supplies from general knowledge (K5) and the model presumes (log 12). -/
def Obligations.FieldReadsBackItsPseudoInstruction : Prop :=
  ∀ (m : Memory) (o : Nat),
    (∀ v : Half, (∀ k, k < 2 → (u16Bytes v)[k]? = some (Memory.cell m (o + k))) → fieldU16 m o = v) ∧
    (∀ v : Word, (∀ k, k < 4 → (u32Bytes v)[k]? = some (Memory.cell m (o + k))) → fieldU32 m o = v) ∧
    ∀ v : Int, -2147483648 ≤ v → v ≤ 2147483647 → (∀ k, k < 4 → (i32Bytes v)[k]? = some (Memory.cell m (o + k))) →
      fieldI32 m o = v
end

