-- ==== Sys2Proof/Laws/Decode.lean ====
section
/-! SUPPORT. What a selector's fields read and what each row of format SB matches, said once for any sync bytes. -/

namespace Sys2Proof

@[simp] theorem byteField_selectorSB (st : SeqState) (b : Byte) : byteField (selectorSB st b) = b :=
  BitVec.extractLsb'_append_eq_right

@[simp] theorem stateField_selectorSB (st : SeqState) (b : Byte) : stateField (selectorSB st b) = st.code :=
  BitVec.extractLsb'_append_eq_left

@[simp] theorem SeqState.ofCode_code (st : SeqState) : SeqState.ofCode st.code = some st := by cases st <;> rfl

/-- The state code and the byte of a selector are determined by it. -/
theorem append_inj {a k : BitVec 4} {b s : Byte} : a ++ b = k ++ s ↔ a = k ∧ b = s := by
  refine ⟨fun h => ⟨?_, ?_⟩, fun h => h.1 ▸ h.2 ▸ rfl⟩
  · simpa only [BitVec.extractLsb'_append_eq_left] using congrArg (BitVec.extractLsb' 8 4) h
  · simpa only [BitVec.extractLsb'_append_eq_right] using congrArg (BitVec.extractLsb' 0 8) h

/-- The mask of the priority-2 rows keeps the state code and drops the byte. -/
theorem append_and_state (a : BitVec 4) (b : Byte) : (a ++ b) &&& (0xF00 : BitVec 12) = a ++ (0#8) := by
  have h : (0xF00 : BitVec 12) = BitVec.allOnes 4 ++ 0#8 := rfl
  rw [h, BitVec.and_append, BitVec.and_allOnes, BitVec.and_zero]

/-- RESYNC's row matches one byte in every state. -/
theorem hits_byte (o : Op) (p : Nat) (a : BitVec 4) (b s : Byte) :
    Row.hits ⟨o, 0#4 ++ s, 0x0FF, p⟩ (a ++ b) = (b == s) := by
  have h : (0x0FF : BitVec 12) = 0#4 ++ BitVec.allOnes 8 := rfl
  rw [Bool.eq_iff_iff, Row.hits, h, BitVec.and_append, BitVec.and_allOnes, BitVec.and_zero, beq_iff_eq, beq_iff_eq,
    append_inj]
  exact ⟨And.right, fun hb => ⟨rfl, hb⟩⟩

/-- SYNC2's row matches one byte in one state. -/
theorem hits_both (o : Op) (p : Nat) (a k : BitVec 4) (b s : Byte) :
    Row.hits ⟨o, k ++ s, 0xFFF, p⟩ (a ++ b) = (a == k && b == s) := by
  have h : (0xFFF : BitVec 12) = BitVec.allOnes 4 ++ BitVec.allOnes 8 := rfl
  rw [Bool.eq_iff_iff, Row.hits, h, BitVec.and_append, BitVec.and_allOnes, BitVec.and_allOnes, beq_iff_eq, append_inj,
    Bool.and_eq_true, beq_iff_eq, beq_iff_eq]

/-- The other rows match every byte in one state. -/
theorem hits_state (o : Op) (p : Nat) (a k : BitVec 4) (b : Byte) :
    Row.hits ⟨o, k ++ (0#8), 0xF00, p⟩ (a ++ b) = (a == k) := by
  rw [Bool.eq_iff_iff, Row.hits, append_and_state, beq_iff_eq, append_inj, beq_iff_eq]
  exact ⟨And.left, fun ha => ⟨ha, rfl⟩⟩

/-- The row of a state's operation matches that state's selectors. -/
theorem hits_own_state {o : Op} {p : Nat} {k : BitVec 4} {b : Byte} {pat : BitVec 12} (h : pat = k ++ (0#8)) :
    Row.hits ⟨o, pat, 0xF00, p⟩ (k ++ b) = true := by
  rw [h, hits_state, beq_self_eq_true]

end Sys2Proof
end

