-- ==== Sys2Proof/Laws/Memory.lean ====
section
/-! SUPPORT. The laws of the payload buffer: a read after a write, the canonical form and the bounds under every operation, and
that two canonical buffers with equal cells are equal. -/

namespace Sys2Proof.Machine

@[simp] theorem Memory.cell_nil (a : Nat) : Memory.cell [] a = Memory.unlisted a := rfl

theorem Memory.cell_cons (x : Nat) (v : Byte) (m : Memory) (a : Nat) :
    Memory.cell ((x, v) :: m) a = if x = a then v else Memory.cell m a := rfl

theorem Memory.cell_forget (m : Memory) (a c : Nat) :
    Memory.cell (Memory.forget m a) c = if c = a then Memory.unlisted c else Memory.cell m c := by
  induction m with
  | nil => simp [Memory.forget]
  | cons p m ih =>
    obtain ⟨x, v⟩ := p
    simp only [Memory.forget] at ih
    by_cases hx : x = a
    · subst hx
      simp only [Memory.forget, List.filter_cons, bne_self_eq_false, Bool.false_eq_true, if_false, ih,
        Memory.cell_cons]
      by_cases hc : c = x
      · simp [hc]
      · simp [hc, Ne.symm hc]
    · simp only [Memory.forget, List.filter_cons, bne_iff_ne, ne_eq, hx, not_false_eq_true, if_true,
        Memory.cell_cons, ih]
      by_cases hc : x = c
      · subst hc; simp [hx]
      · simp [hc]

theorem Memory.cell_insert (m : Memory) (a : Nat) (b : Byte) (c : Nat) :
    Memory.cell (Memory.insert m a b) c = if c = a then b else Memory.cell m c := by
  induction m with
  | nil => by_cases h : a = c <;> simp [Memory.insert, Memory.cell_cons, h, eq_comm]
  | cons p m ih =>
    obtain ⟨x, v⟩ := p
    unfold Memory.insert
    split
    · rename_i h
      simp only [Memory.cell_cons, eq_comm (a := a)]
    · split
      · rename_i h
        subst h
        simp only [Memory.cell_cons, eq_comm (a := a)]
        split <;> simp_all
      · rename_i h
        simp only [Memory.cell_cons, ih]
        by_cases hc : x = c
        · subst hc; simp [Ne.symm h]
        · simp [hc]

/-- A read after a write: the byte written at that index, every other index as before. -/
theorem Memory.cell_store (m : Memory) (a : Nat) (b : Byte) (c : Nat) :
    Memory.cell (Memory.store m a b) c = if c = a then b else Memory.cell m c := by
  unfold Memory.store
  split
  · rename_i h
    rw [Memory.cell_forget, h]
    split <;> simp_all
  · exact Memory.cell_insert m a b c

@[simp] theorem Memory.cell_store_same (m : Memory) (a : Nat) (b : Byte) :
    Memory.cell (Memory.store m a b) a = b := by simp [Memory.cell_store]

theorem Memory.cell_store_other (m : Memory) {a c : Nat} (b : Byte) (h : c ≠ a) :
    Memory.cell (Memory.store m a b) c = Memory.cell m c := by simp [Memory.cell_store, h]

theorem Memory.mem_insert {m : Memory} {a : Nat} {b : Byte} {p : Host.Cell}
    (h : p ∈ Memory.insert m a b) : p = (a, b) ∨ p ∈ m := by
  induction m with
  | nil => simpa [Memory.insert] using h
  | cons q m ih =>
    unfold Memory.insert at h
    split at h
    · simpa using h
    · split at h
      · rcases List.mem_cons.1 h with h | h
        · exact .inl h
        · exact .inr (List.mem_cons_of_mem _ h)
      · rcases List.mem_cons.1 h with h | h
        · exact .inr (h ▸ List.mem_cons_self ..)
        · exact (ih h).imp id (List.mem_cons_of_mem _)

theorem Memory.rising_insert {m : Memory} (a : Nat) (b : Byte)
    (h : m.Pairwise (fun p q => p.1 < q.1)) : (Memory.insert m a b).Pairwise (fun p q => p.1 < q.1) := by
  induction m with
  | nil => simp [Memory.insert]
  | cons q m ih =>
    obtain ⟨hq, hm⟩ := List.pairwise_cons.1 h
    unfold Memory.insert
    split
    · rename_i hlt
      refine List.pairwise_cons.2 ⟨fun p hp => ?_, h⟩
      rcases List.mem_cons.1 hp with rfl | hp
      · exact hlt
      · exact lt_trans hlt (hq p hp)
    · split
      · rename_i _ heq
        subst heq
        exact List.pairwise_cons.2 ⟨fun p hp => hq p hp, hm⟩
      · rename_i h1 h2
        refine List.pairwise_cons.2 ⟨fun p hp => ?_, ih hm⟩
        rcases Memory.mem_insert hp with rfl | hp
        · exact lt_of_le_of_ne (Nat.le_of_not_lt h1) (Ne.symm h2)
        · exact hq p hp

/-- A write keeps the canonical form. -/
theorem Memory.store_wf {m : Memory} (a : Nat) (b : Byte) (h : Memory.wf m) : Memory.wf (Memory.store m a b) := by
  obtain ⟨hr, hu⟩ := h
  unfold Memory.store
  split
  · exact ⟨hr.filter _, fun c hc => hu c (List.mem_of_mem_filter hc)⟩
  · rename_i hb
    refine ⟨Memory.rising_insert a b hr, fun c hc => ?_⟩
    rcases Memory.mem_insert hc with rfl | hc
    · exact hb
    · exact hu c hc

/-- A write at an index that exists keeps every listed cell in bounds. -/
theorem Memory.store_inBounds {cap : Nat} {m : Memory} {a : Nat} (b : Byte) (ha : a < cap)
    (h : Memory.inBounds cap m) : Memory.inBounds cap (Memory.store m a b) := by
  intro c hc
  unfold Memory.store at hc
  split at hc
  · exact h c (List.mem_of_mem_filter hc)
  · rcases Memory.mem_insert hc with rfl | hc
    · exact ha
    · exact h c hc

/-- The buffer of any draw is canonical and in bounds. -/
theorem Memory.ofCells_wf (cap : Nat) (cells : List Host.Cell) :
    Memory.wf (Memory.ofCells cap cells) ∧ Memory.inBounds cap (Memory.ofCells cap cells) := by
  unfold Memory.ofCells
  suffices h : ∀ m : Memory, Memory.wf m → Memory.inBounds cap m →
      Memory.wf (cells.foldl (fun m c => if c.1 < cap then Memory.store m c.1 c.2 else m) m) ∧
      Memory.inBounds cap (cells.foldl (fun m c => if c.1 < cap then Memory.store m c.1 c.2 else m) m) from
    h [] ⟨List.Pairwise.nil, by simp⟩ (by simp [Memory.inBounds])
  induction cells with
  | nil => exact fun m h1 h2 => ⟨h1, h2⟩
  | cons c cells ih =>
    intro m h1 h2
    rw [List.foldl_cons]
    by_cases hc : c.1 < cap
    · rw [if_pos hc]
      exact ih _ (Memory.store_wf _ _ h1) (Memory.store_inBounds _ hc h2)
    · rw [if_neg hc]
      exact ih _ h1 h2

theorem Memory.cell_of_lt {m : Memory} {a : Nat} (h : ∀ c ∈ m, a < c.1) :
    Memory.cell m a = Memory.unlisted a := by
  induction m with
  | nil => rfl
  | cons p m ih =>
    have hp := h p (List.mem_cons_self ..)
    obtain ⟨x, v⟩ := p
    rw [Memory.cell_cons, if_neg (Nat.ne_of_gt hp), ih fun c hc => h c (List.mem_cons_of_mem _ hc)]

/-- Canonical buffers are determined by their cells. -/
theorem Memory.ext_cells {m m' : Memory} (h : Memory.wf m) (h' : Memory.wf m')
    (hc : ∀ a, Memory.cell m a = Memory.cell m' a) : m = m' := by
  induction m generalizing m' with
  | nil =>
    cases m' with
    | nil => rfl
    | cons q m' =>
      have := hc q.1
      rw [Memory.cell_nil, Memory.cell_cons, if_pos rfl] at this
      exact absurd this.symm (h'.2 q (List.mem_cons_self ..))
  | cons p m ih =>
    obtain ⟨hp, hm⟩ := List.pairwise_cons.1 h.1
    cases m' with
    | nil =>
      have := hc p.1
      rw [Memory.cell_nil, Memory.cell_cons, if_pos rfl] at this
      exact absurd this (h.2 p (List.mem_cons_self ..))
    | cons q m' =>
      obtain ⟨hq, hm'⟩ := List.pairwise_cons.1 h'.1
      obtain ⟨x, v⟩ := p
      obtain ⟨y, w⟩ := q
      have hxy : x = y := by
        rcases Nat.lt_trichotomy x y with hl | hl | hl
        · have := hc x
          rw [Memory.cell_cons, if_pos rfl, Memory.cell_of_lt (a := x)
            (fun c hc' => (List.mem_cons.1 hc').elim (fun e => e ▸ hl) fun e => lt_trans hl (hq c e))] at this
          exact absurd this (h.2 _ (List.mem_cons_self ..))
        · exact hl
        · have := hc y
          rw [Memory.cell_of_lt (a := y)
            (fun c hc' => (List.mem_cons.1 hc').elim (fun e => e ▸ hl) fun e => lt_trans hl (hp c e)),
            Memory.cell_cons, if_pos rfl] at this
          exact absurd this.symm (h'.2 _ (List.mem_cons_self ..))
      subst hxy
      have hv : v = w := by simpa [Memory.cell_cons] using hc x
      subst hv
      congr 1
      refine ih ⟨hm, fun c hc => h.2 c (List.mem_cons_of_mem _ hc)⟩
        ⟨hm', fun c hc => h'.2 c (List.mem_cons_of_mem _ hc)⟩ fun a => ?_
      by_cases ha : x = a
      · subst ha
        rw [Memory.cell_of_lt fun c hc => hp c hc, Memory.cell_of_lt fun c hc => hq c hc]
      · simpa [Memory.cell_cons, ha] using hc a

/-! ## The three accesses -/

theorem bufRead_eq_some {c : Config} {m : Memory} {i : Nat} {b : Byte} :
    bufRead c m i = some b ↔ i < c.cap ∧ Memory.cell m i = b := by
  unfold bufRead; split <;> simp_all

theorem bufWrite_eq_some {c : Config} {m m' : Memory} {i : Nat} {b : Byte} :
    bufWrite c m i b = some m' ↔ i < c.cap ∧ Memory.store m i b = m' := by
  unfold bufWrite; split <;> simp_all

theorem bufWrite_eq_none {c : Config} {m : Memory} {i : Nat} {b : Byte} :
    bufWrite c m i b = none ↔ c.cap ≤ i := by
  unfold bufWrite; split <;> simp_all

/-! ## The bytes of a record -/

/-- Where the cell exists, a record's byte is the cell. -/
theorem recordByte_of_lt {c : Config} (m : Memory) {i : Nat} (h : i < c.cap) : recordByte c m i = Memory.cell m i := by
  simp [recordByte, bufRead, h]

@[simp] theorem recordBytes_length (c : Config) (m : Memory) (n : Nat) : (recordBytes c m n).length = n := by
  simp [recordBytes]

theorem recordBytes_getElem? (c : Config) (m : Memory) {n k : Nat} (h : k < n) :
    (recordBytes c m n)[k]? = some (recordByte c m k) := by
  simp [recordBytes, h]

/-- A record no longer than the buffer holds the cells and nothing else. -/
theorem recordBytes_of_le {c : Config} (m : Memory) {n : Nat} (h : n ≤ c.cap) :
    recordBytes c m n = (List.range n).map (Memory.cell m) :=
  List.map_congr_left fun _ hi => recordByte_of_lt m (Nat.lt_of_lt_of_le (List.mem_range.1 hi) h)

end Sys2Proof.Machine
end

