-- ==== Sys2Proof/Laws/State.lean ====
section
/-! SUPPORT. One lemma per field per named update of the state, true by rfl. -/

namespace Sys2Proof.Machine

/-! ## The registers whose widths are parameters, as plain bounds -/

theorem len_lt (l : LenReg) : l.toNat < 65536 := l.isLt
theorem cnt_lt (n : CntReg) : n.toNat < 65536 := n.isLt
theorem code_lt (c : StCode) : c.toNat < 16 := c.isLt

/-! ## `State.begin` -/

@[simp] theorem State.begin_st (s : State) (rest : List Edge) : (s.begin rest).st = s.st := rfl
@[simp] theorem State.begin_cls (s : State) (rest : List Edge) : (s.begin rest).cls = s.cls := rfl
@[simp] theorem State.begin_id (s : State) (rest : List Edge) : (s.begin rest).id = s.id := rfl
@[simp] theorem State.begin_len (s : State) (rest : List Edge) : (s.begin rest).len = s.len := rfl
@[simp] theorem State.begin_cnt (s : State) (rest : List Edge) : (s.begin rest).cnt = s.cnt := rfl
@[simp] theorem State.begin_ckA (s : State) (rest : List Edge) : (s.begin rest).ckA = s.ckA := rfl
@[simp] theorem State.begin_ckB (s : State) (rest : List Edge) : (s.begin rest).ckB = s.ckB := rfl
@[simp] theorem State.begin_buf (s : State) (rest : List Edge) : (s.begin rest).buf = s.buf := rfl
@[simp] theorem State.begin_inputs (s : State) (rest : List Edge) : (s.begin rest).inputs = rest := rfl
@[simp] theorem State.begin_out (s : State) (rest : List Edge) : (s.begin rest).out = .none := rfl
@[simp] theorem State.begin_unpacked (s : State) (rest : List Edge) : (s.begin rest).unpacked = none := rfl
@[simp] theorem State.begin_event (s : State) (rest : List Edge) : (s.begin rest).event = .none := rfl

/-! ## `ckUpdate` -/

@[simp] theorem ckUpdate_st (b : Byte) (s : State) : (ckUpdate b s).st = s.st := rfl
@[simp] theorem ckUpdate_cls (b : Byte) (s : State) : (ckUpdate b s).cls = s.cls := rfl
@[simp] theorem ckUpdate_id (b : Byte) (s : State) : (ckUpdate b s).id = s.id := rfl
@[simp] theorem ckUpdate_len (b : Byte) (s : State) : (ckUpdate b s).len = s.len := rfl
@[simp] theorem ckUpdate_cnt (b : Byte) (s : State) : (ckUpdate b s).cnt = s.cnt := rfl
@[simp] theorem ckUpdate_ckA (b : Byte) (s : State) : (ckUpdate b s).ckA = s.ckA + b := rfl
@[simp] theorem ckUpdate_ckB (b : Byte) (s : State) : (ckUpdate b s).ckB = s.ckB + (s.ckA + b) := rfl
@[simp] theorem ckUpdate_buf (b : Byte) (s : State) : (ckUpdate b s).buf = s.buf := rfl
@[simp] theorem ckUpdate_inputs (b : Byte) (s : State) : (ckUpdate b s).inputs = s.inputs := rfl
@[simp] theorem ckUpdate_out (b : Byte) (s : State) : (ckUpdate b s).out = s.out := rfl
@[simp] theorem ckUpdate_unpacked (b : Byte) (s : State) : (ckUpdate b s).unpacked = s.unpacked := rfl
@[simp] theorem ckUpdate_event (b : Byte) (s : State) : (ckUpdate b s).event = s.event := rfl

/-! ## `abort` -/

@[simp] theorem abort_st (st : SeqState) (e : Event) (s : State) : (abort st e s).st = st := rfl
@[simp] theorem abort_cls (st : SeqState) (e : Event) (s : State) : (abort st e s).cls = s.cls := rfl
@[simp] theorem abort_id (st : SeqState) (e : Event) (s : State) : (abort st e s).id = s.id := rfl
@[simp] theorem abort_len (st : SeqState) (e : Event) (s : State) : (abort st e s).len = s.len := rfl
@[simp] theorem abort_cnt (st : SeqState) (e : Event) (s : State) : (abort st e s).cnt = s.cnt := rfl
@[simp] theorem abort_ckA (st : SeqState) (e : Event) (s : State) : (abort st e s).ckA = s.ckA := rfl
@[simp] theorem abort_ckB (st : SeqState) (e : Event) (s : State) : (abort st e s).ckB = s.ckB := rfl
@[simp] theorem abort_buf (st : SeqState) (e : Event) (s : State) : (abort st e s).buf = s.buf := rfl
@[simp] theorem abort_inputs (st : SeqState) (e : Event) (s : State) : (abort st e s).inputs = s.inputs := rfl
@[simp] theorem abort_out (st : SeqState) (e : Event) (s : State) : (abort st e s).out = s.out := rfl
@[simp] theorem abort_unpacked (st : SeqState) (e : Event) (s : State) : (abort st e s).unpacked = s.unpacked := rfl
@[simp] theorem abort_event (st : SeqState) (e : Event) (s : State) : (abort st e s).event = e := rfl

/-! ## `ignoreByte` -/

@[simp] theorem ignoreByte_st (s : State) : (ignoreByte s).st = s.st := rfl
@[simp] theorem ignoreByte_cls (s : State) : (ignoreByte s).cls = s.cls := rfl
@[simp] theorem ignoreByte_id (s : State) : (ignoreByte s).id = s.id := rfl
@[simp] theorem ignoreByte_len (s : State) : (ignoreByte s).len = s.len := rfl
@[simp] theorem ignoreByte_cnt (s : State) : (ignoreByte s).cnt = s.cnt := rfl
@[simp] theorem ignoreByte_ckA (s : State) : (ignoreByte s).ckA = s.ckA := rfl
@[simp] theorem ignoreByte_ckB (s : State) : (ignoreByte s).ckB = s.ckB := rfl
@[simp] theorem ignoreByte_buf (s : State) : (ignoreByte s).buf = s.buf := rfl
@[simp] theorem ignoreByte_inputs (s : State) : (ignoreByte s).inputs = s.inputs := rfl
@[simp] theorem ignoreByte_out (s : State) : (ignoreByte s).out = s.out := rfl
@[simp] theorem ignoreByte_unpacked (s : State) : (ignoreByte s).unpacked = s.unpacked := rfl
@[simp] theorem ignoreByte_event (s : State) : (ignoreByte s).event = .desyncIgnored := rfl

/-! ## `lenhiRegs` -/

@[simp] theorem lenhiRegs_st (b : Byte) (s : State) : (lenhiRegs b s).st = s.st := rfl
@[simp] theorem lenhiRegs_cls (b : Byte) (s : State) : (lenhiRegs b s).cls = s.cls := rfl
@[simp] theorem lenhiRegs_id (b : Byte) (s : State) : (lenhiRegs b s).id = s.id := rfl
@[simp] theorem lenhiRegs_len (b : Byte) (s : State) : (lenhiRegs b s).len = lenNext b s.len := rfl
@[simp] theorem lenhiRegs_cnt (b : Byte) (s : State) : (lenhiRegs b s).cnt = 0 := rfl
@[simp] theorem lenhiRegs_ckA (b : Byte) (s : State) : (lenhiRegs b s).ckA = s.ckA + b := rfl
@[simp] theorem lenhiRegs_ckB (b : Byte) (s : State) : (lenhiRegs b s).ckB = s.ckB + (s.ckA + b) := rfl
@[simp] theorem lenhiRegs_buf (b : Byte) (s : State) : (lenhiRegs b s).buf = s.buf := rfl
@[simp] theorem lenhiRegs_inputs (b : Byte) (s : State) : (lenhiRegs b s).inputs = s.inputs := rfl
@[simp] theorem lenhiRegs_out (b : Byte) (s : State) : (lenhiRegs b s).out = s.out := rfl
@[simp] theorem lenhiRegs_unpacked (b : Byte) (s : State) : (lenhiRegs b s).unpacked = s.unpacked := rfl
@[simp] theorem lenhiRegs_event (b : Byte) (s : State) : (lenhiRegs b s).event = s.event := rfl

/-! ## `drive` -/

@[simp] theorem drive_st (f : Fields) (s : State) : (drive f s).st = s.st := rfl
@[simp] theorem drive_cls (f : Fields) (s : State) : (drive f s).cls = s.cls := rfl
@[simp] theorem drive_id (f : Fields) (s : State) : (drive f s).id = s.id := rfl
@[simp] theorem drive_len (f : Fields) (s : State) : (drive f s).len = s.len := rfl
@[simp] theorem drive_cnt (f : Fields) (s : State) : (drive f s).cnt = s.cnt := rfl
@[simp] theorem drive_ckA (f : Fields) (s : State) : (drive f s).ckA = s.ckA := rfl
@[simp] theorem drive_ckB (f : Fields) (s : State) : (drive f s).ckB = s.ckB := rfl
@[simp] theorem drive_buf (f : Fields) (s : State) : (drive f s).buf = s.buf := rfl
@[simp] theorem drive_inputs (f : Fields) (s : State) : (drive f s).inputs = s.inputs := rfl
@[simp] theorem drive_out (f : Fields) (s : State) : (drive f s).out = s.out := rfl
@[simp] theorem drive_unpacked (f : Fields) (s : State) : (drive f s).unpacked = some f := rfl
@[simp] theorem drive_event (f : Fields) (s : State) : (drive f s).event = s.event := rfl

/-! ## The state a reset leaves -/

@[simp] theorem State.resetWith_st (c : Config) (d : Draw) (rest : List Edge) : (State.resetWith c d rest).st = .idle := rfl
@[simp] theorem State.resetWith_cls (c : Config) (d : Draw) (rest : List Edge) : (State.resetWith c d rest).cls = d.cls := rfl
@[simp] theorem State.resetWith_id (c : Config) (d : Draw) (rest : List Edge) : (State.resetWith c d rest).id = d.id := rfl
@[simp] theorem State.resetWith_len (c : Config) (d : Draw) (rest : List Edge) : (State.resetWith c d rest).len = d.len := rfl
@[simp] theorem State.resetWith_cnt (c : Config) (d : Draw) (rest : List Edge) : (State.resetWith c d rest).cnt = d.cnt := rfl
@[simp] theorem State.resetWith_ckA (c : Config) (d : Draw) (rest : List Edge) : (State.resetWith c d rest).ckA = d.ckA := rfl
@[simp] theorem State.resetWith_ckB (c : Config) (d : Draw) (rest : List Edge) : (State.resetWith c d rest).ckB = d.ckB := rfl
@[simp] theorem State.resetWith_buf (c : Config) (d : Draw) (rest : List Edge) : (State.resetWith c d rest).buf = Memory.ofCells c.cap d.cells := rfl
@[simp] theorem State.resetWith_inputs (c : Config) (d : Draw) (rest : List Edge) : (State.resetWith c d rest).inputs = rest := rfl
@[simp] theorem State.resetWith_out (c : Config) (d : Draw) (rest : List Edge) : (State.resetWith c d rest).out = .none := rfl
@[simp] theorem State.resetWith_unpacked (c : Config) (d : Draw) (rest : List Edge) : (State.resetWith c d rest).unpacked = none := rfl
@[simp] theorem State.resetWith_event (c : Config) (d : Draw) (rest : List Edge) : (State.resetWith c d rest).event = .none := rfl

/-! ## `Block.withInputs` -/

@[simp] theorem Block.withInputs_st (blk : Block) (rest : List Edge) : (blk.withInputs rest).st = blk.st := rfl
@[simp] theorem Block.withInputs_cls (blk : Block) (rest : List Edge) : (blk.withInputs rest).cls = blk.cls := rfl
@[simp] theorem Block.withInputs_id (blk : Block) (rest : List Edge) : (blk.withInputs rest).id = blk.id := rfl
@[simp] theorem Block.withInputs_len (blk : Block) (rest : List Edge) : (blk.withInputs rest).len = blk.len := rfl
@[simp] theorem Block.withInputs_cnt (blk : Block) (rest : List Edge) : (blk.withInputs rest).cnt = blk.cnt := rfl
@[simp] theorem Block.withInputs_ckA (blk : Block) (rest : List Edge) : (blk.withInputs rest).ckA = blk.ckA := rfl
@[simp] theorem Block.withInputs_ckB (blk : Block) (rest : List Edge) : (blk.withInputs rest).ckB = blk.ckB := rfl
@[simp] theorem Block.withInputs_buf (blk : Block) (rest : List Edge) : (blk.withInputs rest).buf = blk.buf := rfl
@[simp] theorem Block.withInputs_toBlock (blk : Block) (rest : List Edge) : (blk.withInputs rest).toBlock = blk := rfl
@[simp] theorem Block.withInputs_inputs (blk : Block) (rest : List Edge) : (blk.withInputs rest).inputs = rest := rfl
@[simp] theorem Block.withInputs_out (blk : Block) (rest : List Edge) : (blk.withInputs rest).out = .none := rfl
@[simp] theorem Block.withInputs_unpacked (blk : Block) (rest : List Edge) : (blk.withInputs rest).unpacked = none := rfl
@[simp] theorem Block.withInputs_event (blk : Block) (rest : List Edge) : (blk.withInputs rest).event = .none := rfl

/-- The start of a step is its block with the outputs cleared. -/
theorem State.begin_eq (s : State) (rest : List Edge) : s.begin rest = s.toBlock.withInputs rest := rfl

/-! ## A byte edge -/

@[simp] theorem Edge.ofByte_rst (b : Byte) : (Edge.ofByte b).rst = false := rfl
@[simp] theorem Edge.ofByte_inValid (b : Byte) : (Edge.ofByte b).inValid = true := rfl
@[simp] theorem Edge.ofByte_inByte (b : Byte) : (Edge.ofByte b).inByte = b := rfl

/-! ## The kind decode writes only what it drives -/

theorem kindDecode_eq (k : Kind) (s : State) :
    kindDecode k s =
      { s with unpacked := some (fieldsOf k s.buf), event := if k = .unhandled then .unhandledId else s.event } := by
  cases k <;> rfl

end Sys2Proof.Machine
end

