-- ==== Sys2Proof/Laws/Exec.lean ====
section
/-! SUPPORT. What each shared operation and meaning can do, said once: the provers cite these instead of unfolding. -/

namespace Sys2Proof.Machine

/-! ## The checksum -/

@[simp] theorem ckStep_fst (p : Byte × Byte) (b : Byte) : (ckStep p b).1 = p.1 + b := rfl
@[simp] theorem ckStep_snd (p : Byte × Byte) (b : Byte) : (ckStep p b).2 = p.2 + (p.1 + b) := rfl
@[simp] theorem ckSum_nil : ckSum [] = (0, 0) := rfl

theorem ckSum_append_singleton (bs : List Byte) (b : Byte) : ckSum (bs ++ [b]) = ckStep (ckSum bs) b := by
  simp [ckSum, List.foldl_append]

/-! ## The length operand -/

theorem lenLow_toNat (b : Byte) : (lenLow b).toNat = b.toNat := by
  have := b.isLt
  simp only [lenLow, BitVec.zeroExtend, BitVec.toNat_setWidth]
  omega

theorem lenNext_toNat (b : Byte) (len : LenReg) : (lenNext b len).toNat = len.toNat % 256 + 256 * b.toNat := by
  have hb := b.isLt
  simp only [lenNext, BitVec.toNat_append, BitVec.extractLsb'_toNat, Nat.shiftRight_zero]
  rw [Nat.shiftLeft_eq, Nat.mul_comm, ← Nat.two_pow_add_eq_or_of_lt (by omega)]
  omega

/-! ## The meanings that answer on every state, as equations -/

theorem exec_resync (s : State) :
    exec .resync s = .next
      { s with st := .sawSync1, event := if SeqState.inFrame s.st then .resyncAbort else s.event } := by
  simp only [exec, execResync]
  split <;> simp_all [abort]

theorem exec_sync2 (s : State) : exec .sync2 s = .next { s with st := .sawSync2, ckA := 0, ckB := 0 } := rfl

theorem exec_ignoreIdle (s : State) : exec .ignoreIdle s = .next { s with event := .desyncIgnored } := rfl

theorem exec_ignoreSync1 (s : State) : exec .ignoreSync1 s = .next { s with event := .desyncIgnored } := rfl

theorem exec_cls (b : Byte) (s : State) :
    exec (.cls b) s = .next { ckUpdate b s with cls := b, st := .haveClass } := rfl

theorem exec_ident (b : Byte) (s : State) :
    exec (.ident b) s = .next { ckUpdate b s with id := b, st := .haveId } := rfl

theorem exec_lenlo (b : Byte) (s : State) :
    exec (.lenlo b) s = .next { ckUpdate b s with len := lenLow b, st := .haveLengthLow } := rfl

theorem exec_lenhi (b : Byte) (s : State) : exec (.lenhi b) s = .next (lenhi Config.hardware b s) := rfl

theorem exec_payload (b : Byte) (s : State) : exec (.payload b) s = payload Config.hardware b s := rfl

theorem exec_cka (b : Byte) (s : State) :
    exec (.cka b) s = .next (if b = s.ckA then { s with st := .haveChecksumA }
      else { s with st := .idle, event := .ckaMismatch }) := by
  simp only [exec, execCka, ckAMatches, abort, beq_iff_eq]
  split <;> rfl

theorem exec_ckb (b : Byte) (s : State) : exec (.ckb b) s = .next (ckb Config.hardware b s) := rfl

theorem exec_kindInstr (k : Kind) (s : State) : exec (kindInstr k) s = .next (kindDecode k s) := by
  cases k <;> rfl

/-! ## LENHI, PAYLOAD, CKB: the outcomes -/

/-- LENHI has three outcomes; the register writes of all three are `lenhiRegs`. -/
theorem lenhi_cases (c : Config) (b : Byte) (s : State) :
    (c.cap < (lenNext b s.len).toNat ∧
      lenhi c b s = { lenhiRegs b s with st := .idle, event := .overlength, out := .overLength (lenNext b s.len) }) ∨
    ((lenNext b s.len).toNat ≤ c.cap ∧ lenNext b s.len = 0 ∧ lenhi c b s = { lenhiRegs b s with st := .havePayload }) ∨
    ((lenNext b s.len).toNat ≤ c.cap ∧ lenNext b s.len ≠ 0 ∧
      lenhi c b s = { lenhiRegs b s with st := .haveLengthHigh }) := by
  unfold lenhi
  by_cases h1 : c.cap < (lenNext b s.len).toNat
  · exact .inl ⟨h1, by simp [lenExceeds, h1, abort]⟩
  · have h1' : (lenNext b s.len).toNat ≤ c.cap := Nat.le_of_not_lt h1
    by_cases h2 : lenNext b s.len = 0
    · exact .inr (.inl ⟨h1', h2, by simp [lenExceeds, lenIsZero, h2]⟩)
    · have hz : lenIsZero (lenNext b s.len) = false := by simpa [lenIsZero] using h2
      exact .inr (.inr ⟨h1', h2, by simp [lenExceeds, h1, hz]⟩)

/-- PAYLOAD where the cell exists. -/
theorem payload_next (c : Config) (b : Byte) (s : State) (h : s.cnt.toNat < c.cap) :
    payload c b s = .next { ckUpdate b s with
      buf := Memory.store s.buf s.cnt.toNat b, cnt := s.cnt + 1,
      st := if s.cnt + 1 = s.len then .havePayload else .haveLengthHigh } := by
  simp [payload, bufWrite, payloadIndex, h, lastByte]

/-- If PAYLOAD answers a next state, the cell exists and the state is the one above. -/
theorem payload_cases {c : Config} {b : Byte} {s t : State} (h : payload c b s = .next t) :
    s.cnt.toNat < c.cap ∧ t = { ckUpdate b s with
      buf := Memory.store s.buf s.cnt.toNat b, cnt := s.cnt + 1,
      st := if s.cnt + 1 = s.len then .havePayload else .haveLengthHigh } := by
  by_cases hc : s.cnt.toNat < c.cap
  · rw [payload_next c b s hc] at h
    exact ⟨hc, (Host.Outcome.next.inj h).symm⟩
  · simp [payload, bufWrite, payloadIndex, hc] at h

/-- The state a delivering CKB leaves. -/
def delivered (c : Config) (s : State) : State :=
  { s with
    st := .idle
    unpacked := some (fieldsOf (kindOf s.id) s.buf)
    event := if kindOf s.id = .unhandled then .unhandledId else s.event
    out := .frame (frameRecord (recordBytes c s.buf s.len.toNat) s) }

/-- CKB on a match. -/
theorem ckb_match (c : Config) (s : State) : ckb c s.ckB s = delivered c s := by
  simp [ckb, ckBMatches, kindDecode_eq, delivered]

/-- CKB on a mismatch. -/
theorem ckb_mismatch (c : Config) {b : Byte} (s : State) (h : b ≠ s.ckB) :
    ckb c b s = { s with st := .idle, event := .ckbMismatch } := by
  simp [ckb, ckBMatches, h, abort]

/-- CKB has two outcomes. -/
theorem ckb_cases (c : Config) (b : Byte) (s : State) :
    (b = s.ckB ∧ ckb c b s = delivered c s) ∨
    (b ≠ s.ckB ∧ ckb c b s = { s with st := .idle, event := .ckbMismatch }) := by
  by_cases hb : b = s.ckB
  · subst hb
    exact .inl ⟨rfl, ckb_match c s⟩
  · exact .inr ⟨hb, ckb_mismatch c s hb⟩

/-- The state CKB answers. -/
theorem exec_ckb_cases {b : Byte} {s t : State} (h : exec (.ckb b) s = .next t) :
    (b = s.ckB ∧ t = delivered Config.hardware s) ∨ (b ≠ s.ckB ∧ t = { s with st := .idle, event := .ckbMismatch }) := by
  rw [exec_ckb] at h
  rw [← Host.Outcome.next.inj h]
  exact ckb_cases Config.hardware b s

/-! ## The step -/

/-- At this hardware's configuration, `perform` is `exec`. -/
theorem perform_hardware : perform Config.hardware = exec := by
  funext i s
  cases i <;> rfl

/-- What one step can be: waiting, a reset, a byte, or an idle edge. -/
theorem stepWith_cases (c : Config) (run : Executor) (s : State) :
    (s.inputs = [] ∧ stepWith c run s = .next (s.begin [])) ∨
    ∃ e rest, s.inputs = e :: rest ∧
      ((e.rst = true ∧ stepWith c run s = .next (State.resetWith c e.draw rest)) ∨
       (e.rst = false ∧ e.inValid = true ∧ stepWith c run s = feed c run e.inByte (s.begin rest)) ∨
       (e.rst = false ∧ e.inValid = false ∧ stepWith c run s = .next (s.begin rest))) := by
  cases h : s.inputs with
  | nil => exact .inl ⟨rfl, by simp [stepWith, h, waitForEdge]⟩
  | cons e rest =>
    refine .inr ⟨e, rest, rfl, ?_⟩
    cases hr : e.rst with
    | true => exact .inl ⟨rfl, by simp [stepWith, h, clockEdge, hr]⟩
    | false =>
      cases hv : e.inValid with
      | true => exact .inr (.inl ⟨rfl, rfl, by simp [stepWith, h, clockEdge, hr, hv]⟩)
      | false => exact .inr (.inr ⟨rfl, rfl, by simp [stepWith, h, clockEdge, hr, hv]⟩)

/-- What one step of this hardware can be. -/
theorem step_cases (s : State) :
    (s.inputs = [] ∧ step s = .next (s.begin [])) ∨
    ∃ e rest, s.inputs = e :: rest ∧
      ((e.rst = true ∧ step s = .next (State.resetWith Config.hardware e.draw rest)) ∨
       (e.rst = false ∧ e.inValid = true ∧ step s = feed Config.hardware exec e.inByte (s.begin rest)) ∨
       (e.rst = false ∧ e.inValid = false ∧ step s = .next (s.begin rest))) :=
  stepWith_cases Config.hardware exec s

/-- A step at the edge of a byte is `feed`. -/
theorem step_ofByte {s : State} {b : Byte} {rest : List Edge} (h : s.inputs = Edge.ofByte b :: rest) :
    step s = feed Config.hardware exec b (s.begin rest) := by
  simp [step, stepWith, h, clockEdge]

/-! ## Runs -/

theorem runFrom_zero (s : State) : runFrom 0 s = .next s := rfl

theorem runFrom_succ_of_next {n : Nat} {s t : State} (h : step s = .next t) : runFrom (n + 1) s = runFrom n t := by
  have h' : Sys2Proof.core.step s = .next t := h
  simp only [runFrom, Host.Core.run]
  rw [h']

/-- A run of one more step is a step and a run. -/
theorem runFrom_succ_next {n : Nat} {s u : State} (h : runFrom (n + 1) s = .next u) :
    ∃ t, step s = .next t ∧ runFrom n t = .next u := by
  cases hs : step s with
  | next t => exact ⟨t, rfl, by rw [← runFrom_succ_of_next hs]; exact h⟩
  | fault f =>
    have h' : Sys2Proof.core.step s = .fault f := hs
    simp only [runFrom, Host.Core.run] at h
    rw [h'] at h
    cases h
  | refused f =>
    have h' : Sys2Proof.core.step s = .refused f := hs
    simp only [runFrom, Host.Core.run] at h
    rw [h'] at h
    cases h

end Sys2Proof.Machine
end

