-- ==== Sys2Proof/Laws/PerInstr.lean ====
section
/-! SUPPORT. Statements made per instruction. The family `EncodingHitsItsRow`: the selector the encoder gives an instruction
matches that instruction's own row of the opcode table. -/

namespace Sys2Proof

/-- A row of the selector's format with the given name matches the selector. -/
def Selector.hitsRowOf (o : Op) : Selector → Prop
  | .sb sel => ∃ r ∈ sbRows Config.hardware, r.op = o ∧ r.hits sel = true
  | .id sel => ∃ r ∈ idRows, r.op = o ∧ r.hits sel = true

namespace Laws.EncodingHitsItsRow

def Statement (i : Instr) : Prop := i.wellFormed Config.hardware = true → (encode Config.hardware i).hitsRowOf i.op

theorem resync : Statement .resync := fun _ => ⟨_, by simp [sbRows]; exact .inl rfl, rfl, rfl⟩
theorem sync2 : Statement .sync2 := fun _ => ⟨_, by simp [sbRows]; exact .inr (.inl rfl), rfl, rfl⟩
theorem ignoreIdle : Statement .ignoreIdle := fun _ => ⟨⟨.ignoreIdle, 0x000, 0xF00, 2⟩, by simp [sbRows], rfl, rfl⟩
theorem ignoreSync1 : Statement .ignoreSync1 := fun _ => ⟨⟨.ignoreSync1, 0x100, 0xF00, 2⟩, by simp [sbRows], rfl, rfl⟩
theorem cls (b : Byte) : Statement (.cls b) := fun _ =>
  ⟨⟨.cls, 0x200, 0xF00, 2⟩, by simp [sbRows], rfl, hits_own_state rfl⟩
theorem ident (b : Byte) : Statement (.ident b) := fun _ =>
  ⟨⟨.ident, 0x300, 0xF00, 2⟩, by simp [sbRows], rfl, hits_own_state rfl⟩
theorem lenlo (b : Byte) : Statement (.lenlo b) := fun _ =>
  ⟨⟨.lenlo, 0x400, 0xF00, 2⟩, by simp [sbRows], rfl, hits_own_state rfl⟩
theorem lenhi (b : Byte) : Statement (.lenhi b) := fun _ =>
  ⟨⟨.lenhi, 0x500, 0xF00, 2⟩, by simp [sbRows], rfl, hits_own_state rfl⟩
theorem payload (b : Byte) : Statement (.payload b) := fun _ =>
  ⟨⟨.payload, 0x600, 0xF00, 2⟩, by simp [sbRows], rfl, hits_own_state rfl⟩
theorem cka (b : Byte) : Statement (.cka b) := fun _ =>
  ⟨⟨.cka, 0x700, 0xF00, 2⟩, by simp [sbRows], rfl, hits_own_state rfl⟩
theorem ckb (b : Byte) : Statement (.ckb b) := fun _ =>
  ⟨⟨.ckb, 0x800, 0xF00, 2⟩, by simp [sbRows], rfl, hits_own_state rfl⟩
theorem decPosition : Statement .decPosition := fun _ => ⟨⟨.decPosition, 0x02, 0xFF, 0⟩, by simp [idRows], rfl, rfl⟩
theorem decDop : Statement .decDop := fun _ => ⟨⟨.decDop, 0x04, 0xFF, 0⟩, by simp [idRows], rfl, rfl⟩
theorem decVelocity : Statement .decVelocity := fun _ => ⟨⟨.decVelocity, 0x12, 0xFF, 0⟩, by simp [idRows], rfl, rfl⟩
theorem decStatus : Statement .decStatus := fun _ => ⟨⟨.decStatus, 0x06, 0xFF, 0⟩, by simp [idRows], rfl, rfl⟩
theorem decUnhandled : Statement .decUnhandled := fun _ => ⟨⟨.decUnhandled, 0x00, 0x00, 1⟩, by simp [idRows], rfl, rfl⟩

end Laws.EncodingHitsItsRow

end Sys2Proof
end

