-- ==== Sys2Proof/Tests/Slice0.lean ====
section
/-! SUPPORT. Tests: the well-formedness smoke, a word written out from the spec's encoding for every constructor, one step per
instruction on values of spec/95_test_vectors.md and of the rules' own examples, and a witness for the hypotheses of every
statement. -/

namespace Sys2Proof.Tests

open Sys2Proof Sys2Proof.Machine

/-! ## Well-formedness: an ill-formed term for each check (30_encoding.md R90: byte not `0xB5`) -/

theorem test_wf_refuses_cls : (Instr.cls 0xB5).wellFormed Config.hardware = false := by decide
theorem test_wf_refuses_ident : (Instr.ident 0xB5).wellFormed Config.hardware = false := by decide
theorem test_wf_refuses_lenlo : (Instr.lenlo 0xB5).wellFormed Config.hardware = false := by decide
theorem test_wf_refuses_lenhi : (Instr.lenhi 0xB5).wellFormed Config.hardware = false := by decide
theorem test_wf_refuses_payload : (Instr.payload 0xB5).wellFormed Config.hardware = false := by decide
theorem test_wf_refuses_cka : (Instr.cka 0xB5).wellFormed Config.hardware = false := by decide
theorem test_wf_refuses_ckb : (Instr.ckb 0xB5).wellFormed Config.hardware = false := by decide
theorem test_wf_admits_the_other_bytes (b : Byte) (h : b ≠ 0xB5) : operandOk Config.hardware b = true := bne_iff_ne.2 h

/-! ## Decoding: words written out bit by bit from 30_encoding.md R84, R85, R90, R91 (state code in bits 11:8, byte in 7:0) -/

/-- `xB5`: byte `1011 0101` in any of the nine states. -/
theorem test_decode_resync :
    [0b0000_10110101, 0b0001_10110101, 0b0010_10110101, 0b0011_10110101, 0b0100_10110101, 0b0101_10110101,
      0b0110_10110101, 0b0111_10110101, 0b1000_10110101].map (decodeTableWord 16) = List.replicate 9 (some .resync) := by
  decide
/-- `162`: state 1, byte `0110 0010`. -/
theorem test_decode_sync2 : decodeTableWord 16 0b0001_01100010 = some .sync2 := by decide
/-- `0xx`: state 0; a `0x62` there is no SYNC2. -/
theorem test_decode_ignore_idle :
    decodeTableWord 16 0b0000_01100010 = some .ignoreIdle ∧ decodeTableWord 16 0b0000_11111111 = some .ignoreIdle := by
  decide
/-- `1xx`: state 1, byte neither `0xB5` nor `0x62`. -/
theorem test_decode_ignore_sync1 :
    decodeTableWord 16 0b0001_00000000 = some .ignoreSync1 ∧ decodeTableWord 16 0b0001_01100011 = some .ignoreSync1 := by
  decide
theorem test_decode_cls : decodeTableWord 16 0b0010_01100010 = some (.cls 0x62) := by decide
theorem test_decode_ident : decodeTableWord 16 0b0011_00010010 = some (.ident 0x12) := by decide
theorem test_decode_lenlo : decodeTableWord 16 0b0100_11101000 = some (.lenlo 0xE8) := by decide
theorem test_decode_lenhi : decodeTableWord 16 0b0101_00000011 = some (.lenhi 0x03) := by decide
theorem test_decode_payload : decodeTableWord 16 0b0110_10110100 = some (.payload 0xB4) := by decide
theorem test_decode_cka : decodeTableWord 16 0b0111_01000010 = some (.cka 0x42) := by decide
theorem test_decode_ckb : decodeTableWord 16 0b1000_11111110 = some (.ckb 0xFE) := by decide
theorem test_decode_position : decodeTableWord 8 0b00000010 = some .decPosition := by decide
theorem test_decode_dop : decodeTableWord 8 0b00000100 = some .decDop := by decide
theorem test_decode_velocity : decodeTableWord 8 0b00010010 = some .decVelocity := by decide
theorem test_decode_status : decodeTableWord 8 0b00000110 = some .decStatus := by decide
/-- The id `0x01` of V20 and the two neighbours of `0x12`. -/
theorem test_decode_unhandled :
    [0x01, 0x11, 0x13].map (decodeTableWord 8) = List.replicate 3 (some .decUnhandled) := by decide
/-- 30_encoding.md R90, last row: the codes 9 to 15. -/
theorem test_decode_refuses_codes_above_eight :
    [0x900, 0xA62, 0xB01, 0xCB5, 0xD00, 0xE00, 0xFFF].map (decodeTableWord 16) = List.replicate 7 none := by decide
theorem test_decode_refuses_other_shapes :
    decodeBytes Config.hardware [] = .error .noSuchFormat ∧ decodeBytes Config.hardware [0, 0, 0] = .error .noSuchFormat ∧
    decodeBytes Config.hardware [0x62, 0x11] = .error .bitsAboveSelector := ⟨rfl, rfl, rfl⟩
/-- `match`, `mask` and `priority` of the rows of spec/opcode_table.json, in its order. -/
theorem test_rows_of_format_sb :
    (sbRows Config.hardware).map (fun r => (r.pat.toNat, r.mask.toNat, r.priority)) =
      [(0x0B5, 0x0FF, 0), (0x162, 0xFFF, 1), (0x000, 0xF00, 2), (0x100, 0xF00, 2), (0x200, 0xF00, 2), (0x300, 0xF00, 2),
       (0x400, 0xF00, 2), (0x500, 0xF00, 2), (0x600, 0xF00, 2), (0x700, 0xF00, 2), (0x800, 0xF00, 2)] := by decide
theorem test_rows_of_format_id :
    idRows.map (fun r => (r.pat.toNat, r.mask.toNat, r.priority)) =
      [(0x02, 0xFF, 0), (0x04, 0xFF, 0), (0x12, 0xFF, 0), (0x06, 0xFF, 0), (0x00, 0x00, 1)] := by decide

/-! ## One step per instruction -/

/-- A state of the tests: the sequencer, the registers, the cells and the edges still to come. -/
def at' (st : SeqState) (cls id : Byte) (len : LenReg) (cnt : CntReg) (ckA ckB : Byte) (buf : Memory) (bytes : List Byte) : State :=
  ⟨⟨st, cls, id, len, cnt, ckA, ckB, buf⟩, edgesOf bytes, .none, none, .none⟩

/-- The next state, where there is one. -/
def nextOf : Host.Outcome State Fault Refusal → Option State
  | .next t => some t
  | .fault _ => none
  | .refused _ => none

/-- A list of bytes as cells from index 0, zeros unlisted. -/
def cells (bs : List Byte) : Memory := Memory.ofCells 1000 (bs.mapIdx fun i b => (i, b))

theorem nextOf_eq {o : Host.Outcome State Fault Refusal} {t : State} (h : nextOf o = some t) : o = .next t := by
  cases o <;> simp_all [nextOf]

/-- V24 step 8: RESYNC from `HaveLengthHigh` keeps `cnt = 2`. -/
theorem test_resync_aborts :
    (nextOf (exec .resync (at' .haveLengthHigh 1 6 4 2 0x42 0x7B [] []))).map (fun t => (t.st, t.cnt, t.ckB, t.event)) =
      some (.sawSync1, 2, 0x7B, .resyncAbort) := by decide
/-- V21: RESYNC from `SawSync1` raises no event. -/
theorem test_resync_in_sawSync1 :
    (nextOf (exec .resync (at' .sawSync1 1 6 4 2 0x42 0x7B [] []))).map (fun t => (t.st, t.event)) =
      some (.sawSync1, .none) := by decide
/-- P2 step 17: SYNC2 clears `41 FC` and keeps `len`, `cnt`. -/
theorem test_sync2 :
    (nextOf (exec .sync2 (at' .sawSync1 1 6 4 4 0x41 0xFC [] []))).map (fun t => (t.st, t.ckA, t.ckB, t.len, t.cnt)) =
      some (.sawSync2, 0, 0, 4, 4) := by decide
/-- V5 step 6. -/
theorem test_ignore_idle :
    (nextOf (exec .ignoreIdle (at' .idle 1 2 0x3E9 0 0xEF 0xDF [] []))).map (fun t => (t.st, t.len, t.ckA, t.event)) =
      some (.idle, 0x3E9, 0xEF, .desyncIgnored) := by decide
/-- V6 step 1: no fall back to `Idle`. -/
theorem test_ignore_sync1 :
    (nextOf (exec .ignoreSync1 (at' .sawSync1 1 6 4 4 0x42 0xFF [] []))).map (fun t => (t.st, t.event)) =
      some (.sawSync1, .desyncIgnored) := by decide
/-- V21: a class byte `62`. -/
theorem test_cls :
    (nextOf (exec (.cls 0x62) (at' .sawSync2 0 0 0 0 0 0 [] []))).map (fun t => (t.st, t.cls, t.ckA, t.ckB)) =
      some (.haveClass, 0x62, 0x62, 0x62) := by decide
/-- V1 step 3. -/
theorem test_ident :
    (nextOf (exec (.ident 0x06) (at' .haveClass 1 0 0 0 1 1 [] []))).map (fun t => (t.st, t.cls, t.id, t.ckA, t.ckB)) =
      some (.haveId, 1, 6, 7, 8) := by decide
/-- V5 step 12: LENLO replaces `03E9` by `0004`. -/
theorem test_lenlo :
    (nextOf (exec (.lenlo 0x04) (at' .haveId 1 6 0x3E9 0 7 8 [] []))).map (fun t => (t.st, t.len, t.ckA, t.ckB)) =
      some (.haveLengthLow, 4, 0x0B, 0x13) := by decide
/-- V18: 1000 is accepted; V5 step 5: 1001 is rejected; V2 step 5: 0 goes to the checksum. -/
theorem test_lenhi_at_the_capacity :
    ([0x00E8, 0x00E9].map fun l => (nextOf (exec (.lenhi 0x03) (at' .haveLengthLow 1 2 l 9 0xEC 0xF0 [] []))).map
      (fun t => ((t.st, t.len, t.cnt), t.ckA, t.ckB, t.out))) =
      [some ((.haveLengthHigh, 1000, 0), 0xEF, 0xDF, .none), some ((.idle, 1001, 0), 0xEF, 0xDF, .overLength 1001)] := by decide
theorem test_lenhi_of_zero :
    (nextOf (exec (.lenhi 0x00) (at' .haveLengthLow 1 6 0 7 0x07 0x0F [] []))).map (fun t => (t.st, t.cnt, t.ckA, t.ckB)) =
      some (.havePayload, 0, 0x07, 0x16) := by decide
/-- V1 step 7: stored at the old `cnt`. -/
theorem test_payload :
    (nextOf (exec (.payload 0x27) (at' .haveLengthHigh 1 6 4 1 0x1B 0x39 [(0, 0x10)] []))).map
      (fun t => ((t.st, t.cnt), t.ckA, t.ckB, t.buf)) =
      some ((.haveLengthHigh, 2), 0x42, 0x7B, [(0, 0x10), (1, 0x27)]) := by decide
/-- V17: the last byte of a maximal frame goes to `buf[999]`. -/
theorem test_payload_in_the_last_cell :
    (nextOf (exec (.payload 0x54) (at' .haveLengthHigh 1 0x99 1000 999 0 0 [] []))).map (fun t => (t.st, t.cnt, t.buf)) =
      some (.havePayload, 1000, [(999, 0x54)]) := by decide
/-- V1 step 10, V8 step 10. -/
theorem test_cka :
    ([0x42, 0x43].map fun b => (nextOf (exec (.cka b) (at' .havePayload 1 6 4 4 0x42 0xFF [] []))).map
      (fun t => (t.st, t.ckA, t.event))) =
      [some (.haveChecksumA, 0x42, .none), some (.idle, 0x42, .ckaMismatch)] := by decide
/-- V1 step 11. -/
theorem test_ckb_delivers :
    (nextOf (exec (.ckb 0xFF) (at' .haveChecksumA 1 6 4 4 0x42 0xFF [(0, 0x10), (1, 0x27)] []))).map
      (fun t => (t.st, t.out, t.event)) =
      some (.idle, .frame ⟨1, 6, 4, [0x10, 0x27, 0, 0], .status, .status ⟨10000⟩⟩, .none) := by decide
/-- V7 step 11. -/
theorem test_ckb_rejects :
    (nextOf (exec (.ckb 0xFE) (at' .haveChecksumA 1 6 4 4 0x42 0xFF [(0, 0x10), (1, 0x27)] []))).map
      (fun t => (t.st, t.out, t.event)) = some (.idle, .none, .ckbMismatch) := by decide
/-- 43_checksum.md R175: a match delivers and goes to `Idle` whatever `len` is. -/
theorem test_ckb_above_the_capacity :
    (nextOf (exec (.ckb 0xFF) (at' .haveChecksumA 1 6 1001 1001 0x42 0xFF [] []))).map
      (fun t => (t.st, t.len, t.out.frameValid)) = some (.idle, 1001, true) := rfl
/-- The example of 44_unpack_dispatch.md R204. -/
theorem test_decPosition :
    (nextOf (exec .decPosition (at' .idle 1 2 28 28 0 0 (cells [0x15, 0xCD, 0x5B, 0x07, 0x2E, 0xFD, 0x69, 0xB6, 0xC0, 0x46,
      0xB2, 0x1E, 0xC7, 0xCF, 0xFF, 0xFF, 0xCD, 0x81, 0x01, 0x00, 0xC4, 0x09, 0x00, 0x00, 0xA0, 0x0F, 0x00, 0x00]) []))).map
      (fun t => (t.unpacked, t.unpacked.map fun f => ((Fields.bus f)[1], (Fields.bus f)[3], (Fields.bus f)[7]))) =
      some (some (.position ⟨123456789, -1234567890, 515000000, -12345, 98765, 2500, 4000⟩),
        some (0xB669FD2E, 0xFFFFCFC7, 0)) := by decide
/-- The extremes of V11. -/
theorem test_decDop :
    (nextOf (exec .decDop (at' .idle 1 4 18 18 0 0 (cells [0xFF, 0xFF, 0xFF, 0xFF, 0xFF, 0xFF, 0x00, 0x00, 0x01, 0x00, 0x00,
      0x80, 0xFF, 0x00, 0x00, 0xFF, 0x34, 0x12]) []))).map State.unpacked =
      some (some (.dop ⟨4294967295, 65535, 0, 1, 32768, 255, 65280, 4660⟩)) := by decide
/-- The example of 44_unpack_dispatch.md R206. -/
theorem test_decVelocity :
    (nextOf (exec .decVelocity (at' .idle 1 0x12 36 36 0 0 (cells [0x00, 0x5C, 0x26, 0x05, 0x06, 0xFF, 0xFF, 0xFF, 0xE8, 0x03,
      0x00, 0x00, 0xFD, 0xFF, 0xFF, 0xFF, 0x07, 0x04, 0x00, 0x00, 0x06, 0x04, 0x00, 0x00, 0x80, 0x57, 0xED, 0xFE, 0x2D, 0x00,
      0x00, 0x00, 0xF0, 0x49, 0x02, 0x00]) []))).map State.unpacked =
      some (some (.velocity ⟨86400000, -250, 1000, -3, 1031, 1030, -18000000, 45, 150000⟩)) := by decide
/-- The source's example (44_unpack_dispatch.md R207). -/
theorem test_decStatus :
    (nextOf (exec .decStatus (at' .idle 1 6 4 4 0 0 (cells [0x10, 0x27, 0x00, 0x00]) []))).map State.unpacked =
      some (some (.status ⟨10000⟩)) := by decide
/-- V3 step 7: kind 4, every slot 0, the label. -/
theorem test_decUnhandled :
    (nextOf (exec .decUnhandled (at' .idle 0x0A 0x30 0 0 0 0 [] []))).map
      (fun t => (t.unpacked, t.event, (t.unpacked.map fun f => (Fields.bus f)[0]))) =
      some (some .unhandled, .unhandledId, some 0) := by decide

/-! ## Shared operations -/

/-- The table CK of spec/95_test_vectors.md: single updates. -/
theorem test_ckStep :
    [ckStep (0x0B, 0x13) 0x00, ckStep (0xFF, 0xFF) 0xFF, ckStep (0xFF, 0x00) 0x01, ckStep (0x80, 0x80) 0x80,
      ckStep (0x17, 0x34) 0xE8] = [(0x0B, 0x1E), (0xFE, 0xFD), (0x00, 0x00), (0x00, 0x80), (0xFF, 0x33)] := by decide
/-- The table CK: sequences. -/
theorem test_ckSum :
    [ckSum [1, 2, 3], ckSum [3, 2, 1], ckSum [0x80, 0x80, 0x80, 0x80], ckSum [1, 6, 4, 0, 0x10, 0x27, 0, 0]] =
      [(0x06, 0x0A), (0x06, 0x0E), (0, 0), (0x42, 0xFF)] := by decide
/-- The table LE, with `buf[0..7] = 10 27 00 00 FD FF FF FF`. -/
theorem test_little_endian :
    let m := cells [0x10, 0x27, 0, 0, 0xFD, 0xFF, 0xFF, 0xFF]
    (fieldU32 m 0).toNat = 10000 ∧ (fieldU16 m 2).toNat = 0 ∧ (fieldU32 m 4).toNat = 4294967293 ∧ fieldI32 m 4 = -3 ∧
      (fieldU16 m 4).toNat = 65533 ∧ (fieldU32 m 1).toNat = 4244635687 ∧ fieldI32 m 1 = -50331609 ∧
      accumulate m 0 4 0 = 10000 := by decide
/-- 30_encoding.md R99, R100. -/
theorem test_frame_notation :
    frameBytes 0x01 0x06 (u32Bytes 10000) = [0xB5, 0x62, 0x01, 0x06, 0x04, 0x00, 0x10, 0x27, 0x00, 0x00, 0x42, 0xFF] ∧
    i32Bytes (-3) = [0xFD, 0xFF, 0xFF, 0xFF] ∧ u16Bytes 4660 = [0x34, 0x12] := by decide
theorem test_event_codes :
    [Event.none, .desyncIgnored, .resyncAbort, .ckaMismatch, .ckbMismatch, .overlength, .unhandledId].map Event.code =
      [0, 1, 2, 3, 4, 5, 6] := by decide
/-- A placed word runs as the first instruction after reset: the id `0x12` at a delivering CKB, and LENHI. -/
theorem test_withFetchWord :
    (nextOf (step (State.reset.withFetchWord 8 0x12))).map (fun t => (t.st, t.out.decoded.map Prod.fst)) =
      some (.idle, some .velocity) ∧
    (nextOf (step (State.reset.withFetchWord 16 0x504))).map (fun t => (t.st, t.out)) = some (.idle, .overLength 1024) := by
  decide

/-! ## Witnesses: states and operands that meet the hypotheses of the statements -/

/-- DecodeOfEncodedBytesIsTheInstruction. -/
theorem witness_wellFormed : (Instr.payload 0xB4).wellFormed Config.hardware = true ∧ (Instr.payload 0xB6).wellFormed Config.hardware = true := by decide

/-- DecodedInstructionIsWellFormed. -/
theorem witness_decoded : decodeBytes Config.hardware [0xB4, 0x06] = .ok (.payload 0xB4) ∧ decodeBytes Config.hardware [0x06] = .ok .decStatus := ⟨rfl, rfl⟩

/-- StateCodesAboveEightActAsIdle, at both ends of the range. -/
theorem witness_codes : 9 ≤ (9 : StCode).toNat ∧ 9 ≤ (15 : StCode).toNat ∧ ¬ 9 ≤ (8 : StCode).toNat := by decide

/-- IdSelectsTheKind, its last clause. -/
theorem witness_other_id : (0x30 : Byte) ≠ 0x02 ∧ (0x30 : Byte) ≠ 0x04 ∧ (0x30 : Byte) ≠ 0x12 ∧ (0x30 : Byte) ≠ 0x06 := by
  decide

/-- LowestPriorityMatchingRowDecodes: its two selections (`0x1B5` matches a row of priority 0 and one of priority 2), and two
matching rows of equal priority. -/
theorem witness_rows :
    selectRow (sbRows Config.hardware) 0x1B5 = some ⟨.resync, 0x0B5, 0x0FF, 0⟩ ∧ selectRow [(⟨.decDop, 0x04, 0xFF, 0⟩ : Row 8)] 0x05 = none ∧
    (⟨.cls, 0x200, 0xF00, 2⟩ : Row 12) ∈ sbRows Config.hardware ∧ (⟨.cls, 0x200, 0xF00, 2⟩ : Row 12).hits 0x262 = true ∧
    (⟨.decDop, 0x04, 0xFF, 0⟩ : Row 8) ∈ idRows ∧ (⟨.decDop, 0x04, 0xFF, 0⟩ : Row 8).hits 0x04 = true := by decide

/-- StepOnAByteRunsTheDecodedInstruction. -/
theorem witness_byte_step :
    (at' .haveClass 1 0 0 0 1 1 [] [0x06]).inputs = Edge.ofByte 0x06 :: [] ∧ (Edge.ofByte 0x06).rst = false ∧
    (Edge.ofByte 0x06).inValid = true ∧ decodeSB Config.hardware (selectorSB .haveClass (Edge.ofByte 0x06).inByte) = .ok (.ident 0x06) :=
  ⟨rfl, rfl, rfl, rfl⟩

/-- StepOnAByteRunsTheDecodedInstruction, its second clause: the block of V1 before its step 3, and what `feed` makes of it. -/
theorem witness_feedBlock :
    feedBlock Config.hardware exec (at' .haveClass 1 0 0 0 1 1 [] []).toBlock 0x06 =
      .next ((at' .haveId 1 6 0 0 7 8 [] []).toBlock, .none) := rfl

/-- An edge with `in_valid` 0, and one with `rst` 1 and a byte (V27). -/
def idleEdge : Edge := ⟨false, false, 0xB5, Draw.zero⟩
def resetEdge : Edge := ⟨true, true, 0x27, ⟨0x55, 0x66, 0x1234, 0x5678, 0x77, 0x88, [(0, 9), (0, 7), (999, 1)]⟩⟩

/-- StepWithoutAByteChangesNothing, both clauses. -/
theorem witness_no_byte :
    ({ State.reset with inputs := [idleEdge] } : State).inputs = idleEdge :: [] ∧ idleEdge.rst = false ∧
    idleEdge.inValid = false ∧ State.reset.inputs = [] := ⟨rfl, rfl, rfl, rfl⟩

/-- ResetEdgeLeavesIdleAndTheDraw, with a cell drawn twice. -/
theorem witness_reset_edge :
    resetEdge.rst = true ∧
    (nextOf (step { at' .haveLengthHigh 1 6 4 1 0x1B 0x39 [(0, 0x10)] [] with inputs := [resetEdge] })).map
      (fun t => (t.st, t.cls, t.len, t.buf)) = some (.idle, 0x55, 0x1234, [(0, 7), (999, 1)]) := by decide

/-- AnyValuesCanFollowAReset, with the first and the last cell. -/
theorem witness_contents : Memory.wf [(0, 7), (999, 1)] ∧ Memory.inBounds 1000 [(0, 7), (999, 1)] := by decide

/-- IgnoreChangesNothing, both forms. -/
theorem witness_ignore :
    (Instr.ignoreIdle = .ignoreIdle ∨ Instr.ignoreIdle = .ignoreSync1) ∧
    (Instr.ignoreSync1 = .ignoreIdle ∨ Instr.ignoreSync1 = .ignoreSync1) := ⟨.inl rfl, .inr rfl⟩

/-- PayloadStoresOneByteAtTheOldCount and PayloadStopsOutsideTheBuffer, on the two sides of the capacity. -/
theorem witness_payload_index : (999 : CntReg).toNat < 1000 ∧ 1000 ≤ (1000 : CntReg).toNat := by decide

/-- LenhiSplitsThreeWays: lengths 1001, 0, 1 and 1000, one for each clause and its edge. -/
theorem witness_lenhi_lengths :
    ([(0x00E9, 0x03), (0, 0), (1, 0), (0x00E8, 0x03)].map fun p : LenReg × Byte => (lenNext p.2 p.1).toNat) =
      [1001, 0, 1, 1000] := by decide

/-- CkbDeliversTheRecordOnAMatch: both comparisons. -/
theorem witness_ckb : (0xFE : Byte) ≠ 0xFF ∧ (0xFF : Byte) = 0xFF := by decide

/-- FeedIsTotalButForTheAbsentWrite: a payload byte for the last cell, `0xB5` where the write would be absent, the absent write
itself shut out, and a delivery of a length above the capacity. -/
theorem witness_feed :
    ¬ ((at' .haveLengthHigh 1 6 1000 999 0 0 [] []).st = .haveLengthHigh ∧ (0x54 : Byte) ≠ 0xB5 ∧ 1000 ≤ (999 : CntReg).toNat) ∧
    ¬ ((at' .haveLengthHigh 1 6 1001 1000 0 0 [] []).st = .haveLengthHigh ∧ (0xB5 : Byte) ≠ 0xB5 ∧ 1000 ≤ (1000 : CntReg).toNat) ∧
    ((at' .haveLengthHigh 1 6 1001 1000 0 0 [] []).st = .haveLengthHigh ∧ (0x54 : Byte) ≠ 0xB5 ∧ 1000 ≤ (1000 : CntReg).toNat) ∧
    (at' .haveChecksumA 1 6 1001 1001 0x42 0xFF [] []).toBlock.st = .haveChecksumA ∧ (0xFF : Byte) ≠ 0xB5 ∧
    (0xFF : Byte) = (at' .haveChecksumA 1 6 1001 1001 0x42 0xFF [] []).toBlock.ckB := by decide

/-- DecUnhandledDecodesNoField, its last clause, with a full buffer. -/
theorem witness_unhandled :
    decodeID (at' .haveChecksumA 1 0x99 1000 1000 0x6D 0xDA [] []).id = .ok .decUnhandled := rfl

/-- ChecksumUpdateAddsModulo256: an operation of each sort that answers. -/
theorem witness_checksum :
    (∃ t, exec (.payload 1) State.reset = .next t) ∧ checksumByte (.payload 1) = some 1 ∧
    (∃ t, exec (.cka 1) State.reset = .next t) ∧ checksumByte (.cka 1) = none ∧ Instr.cka 1 ≠ .sync2 :=
  ⟨⟨_, rfl⟩, rfl, ⟨_, rfl⟩, rfl, by decide⟩

/-- RecordOutputsFollowIdAndBuffer, its second clause: two states that differ in everything but `id` and the cells. -/
theorem witness_same_outputs :
    (at' .idle 1 6 4 4 0 0 [(0, 9)] []).id = (at' .haveId 2 6 9 8 1 2 [(0, 9)] [0x62]).id ∧
    SameCells (at' .idle 1 6 4 4 0 0 [(0, 9)] []) (at' .haveId 2 6 9 8 1 2 [(0, 9)] [0x62]) := ⟨rfl, fun _ => rfl⟩

/-- LittleEndianReadIsTheSumOfItsBytes at the last offsets that exist; ReadPortReadsTheBuffer on both sides. -/
theorem witness_offsets :
    998 + 2 ≤ Config.hardware.cap ∧ 996 + 4 ≤ Config.hardware.cap ∧ (999 : Half).toNat < Config.hardware.cap ∧
    Config.hardware.cap ≤ (1000 : Half).toNat ∧ ¬ 999 + 2 ≤ Config.hardware.cap := by decide

/-- FieldsReadExactlyTheNeededCells: two buffers that differ at the first cell a STATUS record does not read; and for the last
clause the first and the last cell, and a middle cell of DOP. -/
theorem witness_needed_cells :
    (∀ a, a < Config.need .status → Memory.cell [(4, 1)] a = Memory.cell [] a) ∧ Memory.cell [(4, 1)] 4 ≠ Memory.cell [] 4 ∧
    0 < Config.need .status ∧ 3 < Config.need .status ∧ 8 < Config.need .dop ∧ 9 < Config.need .dop ∧
    (0x80 : Byte) ≠ Memory.cell [] 8 := by decide

/-- OnlyTheSecondSumDependsOnTheOrder and OneCorruptedByteAltersTheFirstSum (`01 02 03`, `03 02 01` of the table CK). -/
theorem witness_orders : ([1, 2, 3] : List Byte).Perm [3, 2, 1] ∧ (0x26 : Byte) ≠ 0x27 := by decide

/-- FieldReadsBackItsPseudoInstruction: `u16(4660)`, `u32(10000)`, `i32(-3)` at offset 4, and the ends of the signed range. -/
theorem witness_pseudo :
    (∀ k, k < 2 → (u16Bytes 4660)[k]? = some (Memory.cell [(4, 0x34), (5, 0x12)] (4 + k))) ∧
    (∀ k, k < 4 → (u32Bytes 10000)[k]? = some (Memory.cell [(4, 0x10), (5, 0x27)] (4 + k))) ∧
    (∀ k, k < 4 → (i32Bytes (-3))[k]? = some (Memory.cell [(4, 0xFD), (5, 0xFF), (6, 0xFF), (7, 0xFF)] (4 + k))) ∧
    (∀ k, k < 4 → (i32Bytes (-2147483648))[k]? = some (Memory.cell [(7, 0x80)] (4 + k))) ∧
    (-2147483648 : Int) ≤ -2147483648 ∧ (-2147483648 : Int) ≤ 2147483647 := by decide

/-- OnlyTheNamedOperationsWriteEachRegister: a next state in which each clause's premise holds. -/
theorem witness_writers :
    ((nextOf (exec (.cls 1) State.reset)).map fun t => decide (t.cls ≠ 0 ∧ t.st ≠ State.reset.st ∧ t.ckA ≠ 0)) = some true ∧
    ((nextOf (exec (.ident 1) State.reset)).map fun t => decide (t.id ≠ 0)) = some true ∧
    ((nextOf (exec (.lenlo 1) State.reset)).map fun t => decide (t.len ≠ 0)) = some true ∧
    ((nextOf (exec (.lenhi 4) State.reset)).map fun t => decide (t.len ≠ 0 ∧ t.out ≠ State.reset.out)) = some true ∧
    ((nextOf (exec (.payload 1) State.reset)).map fun t => decide (t.cnt ≠ 0 ∧ Memory.cell t.buf 0 ≠ 0)) = some true ∧
    ((nextOf (exec (.ckb 0) State.reset)).map fun t => decide (t.out ≠ State.reset.out)) = some true := by decide

/-- StepFollowsTheNextStateTable at the last cell, and where its hypothesis on `cnt` is idle. -/
theorem witness_table :
    ((at' .haveLengthHigh 1 0x99 1000 999 0 0 [] [0x54]).cnt.toNat < 1000) ∧
    (at' .haveLengthHigh 1 0x99 1000 999 0 0 [] [0x54]).inputs = [Edge.ofByte 0x54] ∧
    (at' .haveChecksumA 1 0x99 1000 1000 0x6D 0xDA [] [0xDA]).st ≠ .haveLengthHigh := by decide

/-- StepEventsFollowTheEventTable, StateMovesForwardOrEndsTheFrame: V5 step 5 is such a step. -/
theorem witness_step :
    ∃ t, step (at' .haveLengthLow 1 2 0xE9 0 0xEC 0xF0 [] [0x03]) = .next t ∧ t.event = .overlength ∧ t.st = .idle :=
  ⟨_, rfl, rfl, rfl⟩

/-- The state of V1 after its step 10. -/
def beforeDelivery : State := at' .haveChecksumA 1 6 4 4 0x42 0xFF [(0, 0x10), (1, 0x27)] [0xFF]

/-- EveryStepKeepsTheInvariant, NoRunEverStops: a state in the middle of a frame that has the invariant. -/
theorem witness_inv : Inv beforeDelivery where
  bufWf := by decide
  bufIn := by decide
  lenLow := by decide
  lengths := ⟨by decide, by decide⟩
  checksum := by decide
  noSync := by decide
  matchedFirst := by decide

/-- EveryDeliveredFrameIsClean, DeliveredFrameHasExactlyItsKindsFields, StrobesMarkDeliveryAndRejection and
RecordOutputsFollowIdAndBuffer: from that state the step delivers. -/
theorem witness_delivered :
    ∃ t, step beforeDelivery = .next t ∧ t.out = .frame ⟨1, 6, 4, [0x10, 0x27, 0, 0], .status, .status ⟨10000⟩⟩ ∧
      t.out.ports.frameValid = true := ⟨_, rfl, rfl, rfl⟩

/-- ClassInfluencesNothing: from that state with another class, the record differs in `cls` alone. -/
theorem witness_other_class :
    ∃ t, step { beforeDelivery with cls := 0x77 } = .next t ∧
      t.out = .frame ⟨0x77, 6, 4, [0x10, 0x27, 0, 0], .status, .status ⟨10000⟩⟩ := ⟨_, rfl, rfl⟩

/-- StrobesMarkDeliveryAndRejection, the other strobe. -/
theorem witness_rejected :
    ∃ t, step (at' .haveLengthLow 1 2 0xE9 0 0xEC 0xF0 [] [0x03]) = .next t ∧ t.out.ports.ovl = true := ⟨_, rfl, rfl⟩

/-- LengthBoundsHoldAtEveryCapacity: both ends of the capacity's range, each with a full buffer, and a state for each clause;
and a configuration of other widths is none of this machine's. -/
theorem witness_capacities :
    Config.wf { Config.hardware with cap := 36 } ∧ Config.wf { Config.hardware with cap := 65535 } ∧
    ¬ Config.wf { Config.hardware with cap := 35 } ∧ ¬ Config.wf { Config.hardware with lenW := 8 } ∧
    LengthInv { Config.hardware with cap := 36 } (at' .haveLengthHigh 1 6 36 35 0 0 [] [0x54]) ∧
    LengthInv { Config.hardware with cap := 65535 } (at' .haveLengthHigh 1 6 65535 65534 0 0 [] [0x54]) ∧
    LengthInv { Config.hardware with cap := 65535 } (at' .haveChecksumA 1 6 65535 65535 0 0 [] []) :=
  ⟨by decide, by decide, by decide, by decide, ⟨by decide, by decide⟩, ⟨by decide, by decide⟩, ⟨by decide, by decide⟩⟩

/-- At the capacity 36 the length 37 is rejected, and 36 is not. -/
theorem test_step_at_another_capacity :
    ([37, 36].map fun l => (nextOf (stepAt { Config.hardware with cap := 36 }
      (at' .haveLengthLow 1 2 l 0 0 0 [] [0x00]))).map fun t => (t.st, t.out)) =
      [some (.idle, .overLength 37), some (.haveLengthHigh, .none)] := by decide

/-- EveryCleanFrameIsDelivered (the source's frame, and the empty frame of V3) and OneCorruptedPayloadByteIsRejected (V4:
`27` replaced by `26`). -/
theorem witness_clean :
    CleanFrame 0x01 0x06 [0x10, 0x27, 0x00, 0x00] ∧ CleanFrame 0x0A 0x30 [] ∧
    ([0x10] ++ 0x27 :: [0x00, 0x00] : List Byte) = [0x10, 0x27, 0x00, 0x00] ∧ (0x27 : Byte) ≠ 0x26 ∧ (0x26 : Byte) ≠ 0xB5 ∧
    Config.need (kindOf 0x06) ≤ [0x10, 0x27, 0x00, 0x00].length :=
  ⟨⟨by decide, by decide⟩, ⟨by decide, by decide⟩, rfl, by decide, by decide, by decide⟩

/-- The inputs of the two stream statements: any state may be given them. -/
theorem witness_streams :
    ({ beforeDelivery with inputs := edgesOf (frameBytes 0x01 0x06 [0x10, 0x27, 0, 0]) ++ [idleEdge] } : State).inputs =
      edgesOf (frameBytes 0x01 0x06 [0x10, 0x27, 0, 0]) ++ [idleEdge] ∧
    wireFrame 0x01 0x06 ([0x10] ++ 0x26 :: [0, 0]) (ckSum (coveredBytes 0x01 0x06 ([0x10] ++ 0x27 :: [0, 0]))) =
      [0xB5, 0x62, 0x01, 0x06, 0x04, 0x00, 0x10, 0x26, 0x00, 0x00, 0x42, 0xFF] := ⟨rfl, by decide⟩

/-- TwoSyncBytesReachSawSync2. -/
theorem witness_two_syncs : (at' .haveId 1 6 4 4 0 0 [] [0xB5, 0x62]).inputs = edgesOf [0xB5, 0x62] ++ [] := rfl

/-- LooseSyncSkipsOtherBytes: the bytes of V6. -/
theorem witness_loose :
    (at' .sawSync1 1 6 4 4 0 0 [] [0x00, 0x17, 0x62]).st = .sawSync1 ∧
    (∀ b ∈ ([0x00, 0x17] : List Byte), b ≠ 0xB5 ∧ b ≠ 0x62) ∧
    (at' .sawSync1 1 6 4 4 0 0 [] [0x00, 0x17, 0x62]).inputs = edgesOf ([0x00, 0x17] ++ [0x62]) ++ [] :=
  ⟨rfl, by decide, rfl⟩

/-- DeliveredValuesStayForTheWindow: seven steps of V22's second frame; the last of them, one more than `buf[0]`'s window,
writes `buf[0]`. -/
theorem witness_window :
    (at' .idle 1 6 4 4 0x0C 0x4E [(0, 1)] [0xB5, 0x62, 1, 6, 4, 0, 2]).st = .idle ∧
    NoReset ((at' .idle 1 6 4 4 0x0C 0x4E [(0, 1)] [0xB5, 0x62, 1, 6, 4, 0, 2]).inputs.take 7) ∧
    (nextOf (runFrom 6 (at' .idle 1 6 4 4 0x0C 0x4E [(0, 1)] [0xB5, 0x62, 1, 6, 4, 0, 2]))).map (Memory.cell ·.buf 0) =
      some 1 ∧
    (nextOf (runFrom 7 (at' .idle 1 6 4 4 0x0C 0x4E [(0, 1)] [0xB5, 0x62, 1, 6, 4, 0, 2]))).map (Memory.cell ·.buf 0) =
      some 2 := ⟨rfl, by unfold NoReset; decide, by decide, by decide⟩

/-- RegisterDrawIsNeverObserved: two draws that differ in every register and agree on the cells, and a run from one. -/
theorem witness_draws :
    resetEdge.draw.cells = ({ Draw.zero with cells := [(0, 9), (0, 7), (999, 1)] } : Draw).cells ∧
    ∃ t, runFrom 3 (State.resetWith Config.hardware resetEdge.draw (edgesOf [0xB5, 0x62, 0x01])) = .next t ∧ t.st = .haveClass :=
  ⟨rfl, _, rfl, rfl⟩

end Sys2Proof.Tests
end

section
/-! Selection by match, mask and priority (30_encoding.md R86): what `selectRow` answers on any table, that every selector of a
state and every id has a row, and that rows of equal priority never overlap. -/

namespace Sys2Proof

section AnyTable

variable {w : Nat} {rows : List (Row w)} {sel : BitVec w} {r q : Row w}

/-- No row is selected exactly when none matches. -/
theorem selectRow_eq_none_iff : selectRow rows sel = none ↔ ∀ q ∈ rows, q.hits sel = false := by
  induction rows with
  | nil => simp [selectRow]
  | cons r rs ih =>
    rw [List.forall_mem_cons, ← ih, selectRow]
    cases selectRow rs sel with
    | none => simp
    | some q => by_cases h : (r.hits sel && r.priority ≤ q.priority) = true <;> simp [h]

/-- A matching row makes the selection succeed. -/
theorem exists_selectRow_of_hits (hq : q ∈ rows) (hit : q.hits sel = true) : ∃ r, selectRow rows sel = some r := by
  refine Option.ne_none_iff_exists'.1 fun hnone => ?_
  have hmiss := selectRow_eq_none_iff.1 hnone q hq
  rw [hit] at hmiss
  cases hmiss

/-- The selected row is in the table, matches, and has the lowest priority number of the matching rows. -/
theorem selectRow_eq_some (h : selectRow rows sel = some r) :
    r ∈ rows ∧ r.hits sel = true ∧ ∀ q ∈ rows, q.hits sel = true → r.priority ≤ q.priority := by
  induction rows generalizing r with
  | nil => cases h
  | cons a rs ih =>
    simp only [selectRow] at h
    cases hs : selectRow rs sel with
    | none =>
      have hmiss := selectRow_eq_none_iff.1 hs
      simp only [hs, Option.ite_none_right_eq_some, Option.some.injEq] at h
      obtain ⟨hit, rfl⟩ := h
      refine ⟨List.mem_cons_self .., hit, List.forall_mem_cons.2 ⟨fun _ => le_rfl, fun q hq hqit => ?_⟩⟩
      rw [hmiss q hq] at hqit
      cases hqit
    | some p =>
      obtain ⟨hp, hpit, hmin⟩ := ih hs
      simp only [hs] at h
      split at h
      next hwin =>
        obtain ⟨hit, hle⟩ : a.hits sel = true ∧ a.priority ≤ p.priority := by simpa using hwin
        cases h
        refine ⟨List.mem_cons_self .., hit, List.forall_mem_cons.2 ⟨fun _ => le_rfl, fun q hq hqit => ?_⟩⟩
        exact hle.trans (hmin q hq hqit)
      next hlose =>
        cases h
        refine ⟨List.mem_cons_of_mem _ hp, hpit, List.forall_mem_cons.2 ⟨fun hit => ?_, hmin⟩⟩
        simp only [hit, Bool.true_and, decide_eq_true_eq] at hlose
        omega

/-- Under one mask a selector matches at most one pattern. -/
theorem Row.pat_eq_of_hits (hmask : r.mask = q.mask) (hr : r.hits sel = true) (hq : q.hits sel = true) :
    r.pat = q.pat := by
  rw [Row.hits, beq_iff_eq] at hr hq
  rw [← hr, ← hq, hmask]

end AnyTable

/-- Each priority level of the table uses one mask, and no pattern twice. -/
def LevelsArePatterns {w : Nat} (rows : List (Row w)) : Prop :=
  ∀ r ∈ rows, ∀ q ∈ rows, r.priority = q.priority → r.mask = q.mask ∧ (r.pat = q.pat → r = q)

/-- Rows of equal priority never overlap in a table whose levels have one mask each and no repeated pattern. -/
theorem LevelsArePatterns.eq_of_hits {w : Nat} {rows : List (Row w)} (h : LevelsArePatterns rows) {r q : Row w}
    (hr : r ∈ rows) (hq : q ∈ rows) {sel : BitVec w} (hp : r.priority = q.priority) (hrit : r.hits sel = true)
    (hqit : q.hits sel = true) : r = q := by
  obtain ⟨hmask, hpat⟩ := h r hr q hq hp
  exact hpat (Row.pat_eq_of_hits hmask hrit hqit)

theorem levelsArePatterns_sbRows : LevelsArePatterns (sbRows Config.hardware) := by
  unfold LevelsArePatterns
  decide

theorem levelsArePatterns_idRows : LevelsArePatterns idRows := by
  unfold LevelsArePatterns
  decide

/-- Every state has a row of its own, which looks at the state code alone. -/
theorem exists_row_of_state (c : Config) (st : SeqState) : ∃ o, ⟨o, st.code ++ (0#8), 0xF00, 2⟩ ∈ sbRows c := by
  cases st <;> simp [sbRows, SeqState.code]

theorem exists_selectRow_sbRows (c : Config) (st : SeqState) (b : Byte) :
    ∃ r, selectRow (sbRows c) (selectorSB st b) = some r := by
  obtain ⟨o, ho⟩ := exists_row_of_state c st
  exact exists_selectRow_of_hits ho (hits_own_state rfl)

/-- DEC_UNHANDLED's row has the empty mask, so every id has a row. -/
theorem exists_selectRow_idRows (i : Byte) : ∃ r, selectRow idRows i = some r := by
  have hrow : (⟨.decUnhandled, 0x00, 0x00, 1⟩ : Row 8) ∈ idRows := by decide
  exact exists_selectRow_of_hits hrow (by simp [Row.hits])

theorem decodeSB_of_selectRow {c : Config} {st : SeqState} {b : Byte} {r : Row 12}
    (h : selectRow (sbRows c) (selectorSB st b) = some r) : decodeSB c (selectorSB st b) = .ok (r.op.instr b) := by
  simp [decodeSB, h]

theorem decodeID_of_selectRow {i : Byte} {r : Row 8} (h : selectRow idRows i = some r) :
    decodeID i = .ok (r.op.instr i) := by
  simp [decodeID, h]

/-- The priority numbers of format SB, whatever the sync bytes. -/
theorem priority_of_mem_sbRows (c : Config) :
    ∀ r ∈ sbRows c, r.priority = if r.op = .resync then 0 else if r.op = .sync2 then 1 else 2 := by
  simp [sbRows]

theorem priority_of_mem_idRows : ∀ r ∈ idRows, r.priority = if r.op = .decUnhandled then 1 else 0 := by
  decide

/-- Settles O6: `selectRow` keeps the lowest of the matching rows (induction on the table), each state and each id has a
matching row, and within a priority level the rows share a mask and differ in their patterns. -/
theorem lowestPriorityMatchingRowDecodes : Obligations.LowestPriorityMatchingRowDecodes := by
  unfold Obligations.LowestPriorityMatchingRowDecodes
  refine ⟨fun _ _ _ _ => selectRow_eq_some, fun _ _ _ => selectRow_eq_none_iff.1, fun st b => ?_, fun i => ?_,
    priority_of_mem_sbRows _, priority_of_mem_idRows, fun _ hr _ hq _ => levelsArePatterns_sbRows.eq_of_hits hr hq,
    fun _ hr _ hq _ => levelsArePatterns_idRows.eq_of_hits hr hq⟩
  · obtain ⟨r, hr⟩ := exists_selectRow_sbRows Config.hardware st b
    exact ⟨r, hr, decodeSB_of_selectRow hr⟩
  · obtain ⟨r, hr⟩ := exists_selectRow_idRows i
    exact ⟨r, hr, decodeID_of_selectRow hr⟩

end Sys2Proof
end

section
/-! Synchronisation (40_sync.md): the selector decodes as the chain of R110, the three operations RESYNC, SYNC2 and IGNORE of
R111 to R113, and the next-state table of R117. -/

namespace Sys2Proof

/-! ## The rows of format SB that match a selector -/

section AnyTable

variable {w : Nat} {rows : List (Row w)} {sel : BitVec w} {r : Row w}

/-- A matching row whose priority every other matching row exceeds is the one selected. -/
theorem selectRow_eq_of_lowest (hr : r ∈ rows) (hit : r.hits sel = true)
    (hlow : ∀ q ∈ rows, q.hits sel = true → q = r ∨ r.priority < q.priority) : selectRow rows sel = some r := by
  obtain ⟨p, hp⟩ := exists_selectRow_of_hits hr hit
  obtain ⟨hmem, hpit, hmin⟩ := selectRow_eq_some hp
  rcases hlow p hmem hpit with rfl | hlt
  · exact hp
  · exact absurd (hmin r hr hit) (Nat.not_le_of_lt hlt)

end AnyTable

theorem SeqState.code_inj {st k : SeqState} : st.code = k.code ↔ st = k := by
  refine ⟨fun h => ?_, congrArg _⟩
  simpa using congrArg SeqState.ofCode h

/-- The operation of a state's priority-2 row (30_encoding.md R90): what the state does with a byte that is no sync byte. -/
def SeqState.rowOp : SeqState → Op
  | .idle => .ignoreIdle
  | .sawSync1 => .ignoreSync1
  | .sawSync2 => .cls
  | .haveClass => .ident
  | .haveId => .lenlo
  | .haveLengthLow => .lenhi
  | .haveLengthHigh => .payload
  | .havePayload => .cka
  | .haveChecksumA => .ckb

/-- RESYNC's row of the table: the first sync byte in any state. -/
def resyncRow (c : Config) : Row 12 := ⟨.resync, 0#4 ++ c.sync1, 0x0FF, 0⟩

/-- SYNC2's row of the table: the second sync byte in `SawSync1`. -/
def sync2Row (c : Config) : Row 12 := ⟨.sync2, SeqState.sawSync1.code ++ c.sync2, 0xFFF, 1⟩

/-- A state's priority-2 row of the table: any byte in that state. -/
def SeqState.row (st : SeqState) : Row 12 := ⟨st.rowOp, st.code ++ (0#8), 0xF00, 2⟩

/-- The table of format SB is the two sync rows and one row for each state. -/
theorem mem_sbRows {c : Config} {q : Row 12} :
    q ∈ sbRows c ↔ q = resyncRow c ∨ q = sync2Row c ∨ ∃ st : SeqState, q = st.row := by
  have hrows : sbRows c = resyncRow c :: sync2Row c :: [SeqState.idle.row, SeqState.sawSync1.row, SeqState.sawSync2.row,
    SeqState.haveClass.row, SeqState.haveId.row, SeqState.haveLengthLow.row, SeqState.haveLengthHigh.row,
    SeqState.havePayload.row, SeqState.haveChecksumA.row] := rfl
  rw [hrows, List.mem_cons, List.mem_cons]
  refine or_congr_right (or_congr_right ⟨fun h => ?_, ?_⟩)
  · simp only [List.mem_cons, List.not_mem_nil, or_false] at h
    rcases h with h | h | h | h | h | h | h | h | h <;> exact ⟨_, h⟩
  · rintro ⟨st, rfl⟩
    cases st <;> simp

@[simp] theorem resyncRow_hits {c : Config} {st : SeqState} {b : Byte} :
    (resyncRow c).hits (selectorSB st b) = true ↔ b = c.sync1 := by
  rw [resyncRow, selectorSB, hits_byte, beq_iff_eq]

@[simp] theorem sync2Row_hits {c : Config} {st : SeqState} {b : Byte} :
    (sync2Row c).hits (selectorSB st b) = true ↔ st = .sawSync1 ∧ b = c.sync2 := by
  rw [sync2Row, selectorSB, hits_both, Bool.and_eq_true, beq_iff_eq, beq_iff_eq, SeqState.code_inj]

@[simp] theorem SeqState.row_hits {st k : SeqState} {b : Byte} :
    k.row.hits (selectorSB st b) = true ↔ st = k := by
  rw [SeqState.row, selectorSB, hits_state, beq_iff_eq, SeqState.code_inj]

/-! ## The selected row, in the order of the priorities -/

theorem selectRow_of_sync1 (c : Config) (st : SeqState) :
    selectRow (sbRows c) (selectorSB st c.sync1) = some (resyncRow c) := by
  refine selectRow_eq_of_lowest (mem_sbRows.2 (.inl rfl)) (resyncRow_hits.2 rfl) fun q hq _ => ?_
  rcases mem_sbRows.1 hq with rfl | rfl | ⟨k, rfl⟩
  · exact .inl rfl
  · exact .inr Nat.zero_lt_one
  · exact .inr Nat.zero_lt_two

theorem selectRow_of_sync2 {c : Config} (hne : c.sync2 ≠ c.sync1) :
    selectRow (sbRows c) (selectorSB .sawSync1 c.sync2) = some (sync2Row c) := by
  refine selectRow_eq_of_lowest (mem_sbRows.2 (.inr (.inl rfl))) (sync2Row_hits.2 ⟨rfl, rfl⟩) fun q hq hit => ?_
  rcases mem_sbRows.1 hq with rfl | rfl | ⟨k, rfl⟩
  · exact absurd (resyncRow_hits.1 hit) hne
  · exact .inl rfl
  · exact .inr Nat.one_lt_two

theorem selectRow_of_other {c : Config} {st : SeqState} {b : Byte} (h1 : b ≠ c.sync1)
    (h2 : ¬ (st = .sawSync1 ∧ b = c.sync2)) : selectRow (sbRows c) (selectorSB st b) = some st.row := by
  refine selectRow_eq_of_lowest (mem_sbRows.2 (.inr (.inr ⟨st, rfl⟩))) (SeqState.row_hits.2 rfl) fun q hq hit => ?_
  rcases mem_sbRows.1 hq with rfl | rfl | ⟨k, rfl⟩
  · exact absurd (resyncRow_hits.1 hit) h1
  · exact absurd (sync2Row_hits.1 hit) h2
  · exact .inl (congrArg SeqState.row (SeqState.row_hits.1 hit).symm)

namespace Machine

/-! ## The chain of 40_sync.md R110 -/

theorem chainOp_of_sync1 (c : Config) (st : SeqState) : chainOp c st c.sync1 = .resync := if_pos rfl

theorem chainOp_of_sync2 {c : Config} (hne : c.sync2 ≠ c.sync1) : chainOp c .sawSync1 c.sync2 = .sync2 := by
  simp [chainOp, hne]

theorem chainOp_of_other {c : Config} {st : SeqState} {b : Byte} (h1 : b ≠ c.sync1)
    (h2 : ¬ (st = .sawSync1 ∧ b = c.sync2)) : chainOp c st b = st.rowOp.instr b := by
  rw [chainOp, if_neg h1, if_neg h2]
  cases st <;> rfl

/-- Decoding by match, mask and priority is the chain: each of the chain's three regions has its lowest matching row. -/
theorem decodeSB_selectorSB (c : Config) (st : SeqState) (b : Byte) :
    decodeSB c (selectorSB st b) = .ok (chainOp c st b) := by
  by_cases h1 : b = c.sync1
  · subst h1
    rw [decodeSB_of_selectRow (selectRow_of_sync1 c st), chainOp_of_sync1]
    rfl
  by_cases h2 : st = .sawSync1 ∧ b = c.sync2
  · obtain ⟨rfl, rfl⟩ := h2
    rw [decodeSB_of_selectRow (selectRow_of_sync2 h1), chainOp_of_sync2 h1]
    rfl
  · rw [decodeSB_of_selectRow (selectRow_of_other h1 h2), chainOp_of_other h1 h2]
    rfl

/-- `feed` performs the chain's operation. -/
theorem feed_eq (c : Config) (run : Executor) (b : Byte) (s : State) : feed c run b s = run (chainOp c s.st b) s := by
  simp only [feed, decodeSB_selectorSB]

/-- Settles O2: the selected row is RESYNC's, SYNC2's or the state's own, as the chain's first true condition has it. -/
theorem selectorDecodesAsTheStepChain : Obligations.SelectorDecodesAsTheStepChain := by
  unfold Obligations.SelectorDecodesAsTheStepChain
  exact ⟨decodeSB_selectorSB, fun c run s b => feed_eq c run b s⟩

/-! ## When each synchronisation operation is selected (40_sync.md R111 to R113) -/

/-- The chain's three regions. -/
theorem chainOp_cases (c : Config) (st : SeqState) (b : Byte) :
    (b = c.sync1 ∧ chainOp c st b = .resync) ∨
    (b ≠ c.sync1 ∧ (st = .sawSync1 ∧ b = c.sync2) ∧ chainOp c st b = .sync2) ∨
    (b ≠ c.sync1 ∧ ¬ (st = .sawSync1 ∧ b = c.sync2) ∧ chainOp c st b = st.rowOp.instr b) := by
  by_cases h1 : b = c.sync1
  · exact .inl ⟨h1, h1 ▸ chainOp_of_sync1 c st⟩
  by_cases h2 : st = .sawSync1 ∧ b = c.sync2
  · obtain ⟨rfl, rfl⟩ := h2
    exact .inr (.inl ⟨h1, ⟨rfl, rfl⟩, chainOp_of_sync2 h1⟩)
  · exact .inr (.inr ⟨h1, h2, chainOp_of_other h1 h2⟩)

theorem rowOp_instr_ne_resync (st : SeqState) (b : Byte) : st.rowOp.instr b ≠ .resync := by
  cases st <;> exact nofun

theorem rowOp_instr_ne_sync2 (st : SeqState) (b : Byte) : st.rowOp.instr b ≠ .sync2 := by
  cases st <;> exact nofun

theorem rowOp_instr_eq_ignoreIdle {st : SeqState} {b : Byte} : st.rowOp.instr b = .ignoreIdle ↔ st = .idle := by
  cases st <;> simp [SeqState.rowOp, Op.instr]

theorem rowOp_instr_eq_ignoreSync1 {st : SeqState} {b : Byte} : st.rowOp.instr b = .ignoreSync1 ↔ st = .sawSync1 := by
  cases st <;> simp [SeqState.rowOp, Op.instr]

theorem chainOp_eq_resync {c : Config} {st : SeqState} {b : Byte} : chainOp c st b = .resync ↔ b = c.sync1 := by
  rcases chainOp_cases c st b with ⟨h1, hop⟩ | ⟨h1, -, hop⟩ | ⟨h1, -, hop⟩ <;> rw [hop]
  · simp [h1]
  · simp [h1]
  · simp [h1, rowOp_instr_ne_resync]

theorem chainOp_eq_sync2 {c : Config} {st : SeqState} {b : Byte} :
    chainOp c st b = .sync2 ↔ b ≠ c.sync1 ∧ st = .sawSync1 ∧ b = c.sync2 := by
  rcases chainOp_cases c st b with ⟨h1, hop⟩ | ⟨h1, h2, hop⟩ | ⟨-, h2, hop⟩ <;> rw [hop]
  · simp [h1]
  · exact iff_of_true rfl ⟨h1, h2⟩
  · simp [h2, rowOp_instr_ne_sync2]

theorem chainOp_eq_ignoreIdle {c : Config} {st : SeqState} {b : Byte} :
    chainOp c st b = .ignoreIdle ↔ st = .idle ∧ b ≠ c.sync1 := by
  rcases chainOp_cases c st b with ⟨h1, hop⟩ | ⟨-, ⟨rfl, -⟩, hop⟩ | ⟨h1, -, hop⟩ <;> rw [hop]
  · simp [h1]
  · simp
  · simp [h1, rowOp_instr_eq_ignoreIdle]

theorem chainOp_eq_ignoreSync1 {c : Config} {st : SeqState} {b : Byte} :
    chainOp c st b = .ignoreSync1 ↔ st = .sawSync1 ∧ b ≠ c.sync1 ∧ b ≠ c.sync2 := by
  rcases chainOp_cases c st b with ⟨h1, hop⟩ | ⟨-, ⟨-, h2⟩, hop⟩ | ⟨h1, h2, hop⟩ <;> rw [hop]
  · simp [h1]
  · simp [h2]
  · rw [rowOp_instr_eq_ignoreSync1]
    exact ⟨fun hst => ⟨hst, h1, fun hb => h2 ⟨hst, hb⟩⟩, And.left⟩

/-- What is selected, through the chain. -/
theorem decodeSB_eq_ok_iff {c : Config} {st : SeqState} {b : Byte} {i : Instr} :
    decodeSB c (selectorSB st b) = .ok i ↔ chainOp c st b = i := by
  rw [decodeSB_selectorSB, Except.ok.injEq]

theorem inFrame_iff (st : SeqState) : SeqState.inFrame st = true ↔ ¬ (st = .idle ∨ st = .sawSync1) := by
  cases st <;> simp [SeqState.inFrame]

/-- Settles O13: the chain's first condition is `b == SYNC1`, and RESYNC is a write of `st` and a label. -/
theorem resyncWritesOnlyTheState : Obligations.ResyncWritesOnlyTheState := by
  unfold Obligations.ResyncWritesOnlyTheState
  refine ⟨fun st x => decodeSB_eq_ok_iff.trans chainOp_eq_resync, fun s => ?_⟩
  refine ⟨_, exec_resync s, rfl, ⟨rfl, rfl, rfl, rfl, rfl, rfl⟩, fun _ => rfl, ⟨rfl, rfl⟩, rfl, ?_⟩
  simp only [inFrame_iff, ite_not]

/-- Settles O14: the two sync bytes differ, so the chain's second condition decides. -/
theorem sync2ClearsTheChecksum : Obligations.Sync2ClearsTheChecksum := by
  unfold Obligations.Sync2ClearsTheChecksum
  refine ⟨fun st x => (decodeSB_eq_ok_iff.trans chainOp_eq_sync2).trans ⟨And.right, fun h => ⟨?_, h⟩⟩, fun s => ?_⟩
  · obtain ⟨-, rfl⟩ := h
    decide
  · exact ⟨_, exec_sync2 s, rfl, rfl, rfl, rfl, rfl, rfl, rfl, fun _ => rfl, ⟨rfl, rfl⟩, rfl, rfl⟩

/-- Settles O15: IGNORE is what the rows of `Idle` and `SawSync1` leave to the chain, and each only labels the step. -/
theorem ignoreChangesNothing : Obligations.IgnoreChangesNothing := by
  unfold Obligations.IgnoreChangesNothing
  refine ⟨fun st x => decodeSB_eq_ok_iff.trans chainOp_eq_ignoreIdle,
    fun st x => decodeSB_eq_ok_iff.trans chainOp_eq_ignoreSync1, ?_⟩
  rintro i s (rfl | rfl)
  · exact ⟨_, exec_ignoreIdle s, rfl, ⟨rfl, rfl, rfl, rfl, rfl, rfl⟩, fun _ => rfl, ⟨rfl, rfl⟩, rfl, rfl⟩
  · exact ⟨_, exec_ignoreSync1 s, rfl, ⟨rfl, rfl, rfl, rfl, rfl, rfl⟩, fun _ => rfl, ⟨rfl, rfl⟩, rfl, rfl⟩

end Machine

end Sys2Proof
end

section
/-! The next-state table (40_sync.md R117): one lemma for each of its rows. -/

namespace Sys2Proof.Machine

/-- The columns of the next-state table after "operation", as `StepFollowsTheNextStateTable` has them. -/
structure TableColumns (s : State) (b : Byte) (t : State) : Prop where
  st     : t.st = tableNext s b
  cls    : t.cls = if s.st = .sawSync2 ∧ b ≠ 0xB5 then b else s.cls
  id     : t.id = if s.st = .haveClass ∧ b ≠ 0xB5 then b else s.id
  len    : t.len.toNat = if s.st = .haveId ∧ b ≠ 0xB5 then b.toNat
    else if s.st = .haveLengthLow ∧ b ≠ 0xB5 then declaredLen s b else s.len.toNat
  cnt    : t.cnt.toNat = if s.st = .haveLengthLow ∧ b ≠ 0xB5 then 0
    else if s.st = .haveLengthHigh ∧ b ≠ 0xB5 then s.cnt.toNat + 1 else s.cnt.toNat
  sums   : (t.ckA, t.ckB) = if s.st = .sawSync1 ∧ b = 0x62 then (0, 0)
    else if 2 ≤ SeqState.rank s.st ∧ SeqState.rank s.st ≤ 6 ∧ b ≠ 0xB5 then (s.ckA + b, s.ckB + (s.ckA + b))
    else (s.ckA, s.ckB)
  cells  : ∀ a, Memory.cell t.buf a =
    if s.st = .haveLengthHigh ∧ b ≠ 0xB5 ∧ a = s.cnt.toNat then b else Memory.cell s.buf a
  output : if s.st = .haveLengthLow ∧ b ≠ 0xB5 ∧ 1000 < declaredLen s b then t.out = .overLength t.len
    else if s.st = .haveChecksumA ∧ b ≠ 0xB5 ∧ b = s.ckB then ∃ r, t.out = .frame r ∧ IsRecordOf s r
    else t.out = .none

/-- The operation answers on this state, leaves the pending edges, and every column holds of what it leaves. -/
def MeetsTable (i : Instr) (s : State) (b : Byte) : Prop :=
  ∃ t, exec i s = .next t ∧ t.inputs = s.inputs ∧ TableColumns s b t

/-! ## The quantities the table's columns speak of -/

@[simp] theorem rank_idle : SeqState.rank .idle = 0 := rfl
@[simp] theorem rank_sawSync1 : SeqState.rank .sawSync1 = 1 := rfl
@[simp] theorem rank_sawSync2 : SeqState.rank .sawSync2 = 2 := rfl
@[simp] theorem rank_haveClass : SeqState.rank .haveClass = 3 := rfl
@[simp] theorem rank_haveId : SeqState.rank .haveId = 4 := rfl
@[simp] theorem rank_haveLengthLow : SeqState.rank .haveLengthLow = 5 := rfl
@[simp] theorem rank_haveLengthHigh : SeqState.rank .haveLengthHigh = 6 := rfl
@[simp] theorem rank_havePayload : SeqState.rank .havePayload = 7 := rfl
@[simp] theorem rank_haveChecksumA : SeqState.rank .haveChecksumA = 8 := rfl

/-- The length LENHI assembles is the one the table declares. -/
theorem lenNext_toNat_eq_declaredLen (b : Byte) (s : State) : (lenNext b s.len).toNat = declaredLen s b :=
  lenNext_toNat b s.len

theorem lenNext_eq_zero_iff (b : Byte) (s : State) : lenNext b s.len = 0 ↔ declaredLen s b = 0 := by
  rw [← lenNext_toNat_eq_declaredLen]
  exact BitVec.toNat_inj.symm

/-- Below the capacity the count does not wrap. -/
theorem cnt_succ_toNat {n : CntReg} (h : n.toNat < 1000) : (n + 1#16).toNat = n.toNat + 1 := by
  have hadd : (n + 1#16).toNat = (n.toNat + 1) % 65536 := BitVec.toNat_add n 1#16
  omega

theorem cnt_succ_eq_iff {n : CntReg} {l : LenReg} (h : n.toNat < 1000) : n + 1#16 = l ↔ n.toNat + 1 = l.toNat := by
  rw [← cnt_succ_toNat h]
  exact BitVec.toNat_inj.symm

theorem fieldsOf_kind (k : Kind) (m : Memory) : (fieldsOf k m).kind = k := by
  cases k <;> rfl

theorem fieldsOf_valueColumn (k : Kind) (m : Memory) : ValueColumn m (fieldsOf k m) := by
  cases k <;> simp [fieldsOf, ValueColumn, positionFields, dopFields, velocityFields, statusFields]

/-- A record's payload is the cells, where they exist. -/
theorem recordBytes_payloadOf (s : State) :
    PayloadOf s (recordBytes Config.hardware s.buf s.len.toNat) := by
  refine ⟨recordBytes_length .., fun k hk hcap => ?_⟩
  rw [recordBytes_getElem? _ _ hk, recordByte_of_lt _ hcap]

/-- The record CKB puts out is the one a delivery must put out (44_unpack_dispatch.md R200). -/
theorem frameRecord_isRecordOf (s : State) :
    IsRecordOf s (frameRecord (recordBytes Config.hardware s.buf s.len.toNat) s) :=
  ⟨rfl, rfl, rfl, recordBytes_payloadOf s, rfl, fieldsOf_kind .., fieldsOf_valueColumn ..⟩

/-! ## The rows

The row's state and byte decide every column's condition; what is left of a column is the operation's own write. Where an
operation has several outcomes, its case lemma of Laws/Exec gives them. -/

section Rows

variable {s : State} {b : Byte}

theorem meetsTable_resync (hout : s.out = .none) : MeetsTable .resync s 0xB5 := by
  refine ⟨_, exec_resync s, rfl, ?_⟩
  constructor <;> simp [tableNext, hout]

theorem meetsTable_ignoreIdle (hst : s.st = .idle) (hb : b ≠ 0xB5#8) (hout : s.out = .none) :
    MeetsTable .ignoreIdle s b := by
  refine ⟨_, exec_ignoreIdle s, rfl, ?_⟩
  constructor <;> simp [tableNext, hst, hb, hout]

theorem meetsTable_sync2 (hst : s.st = .sawSync1) (hout : s.out = .none) : MeetsTable .sync2 s 0x62 := by
  refine ⟨_, exec_sync2 s, rfl, ?_⟩
  constructor <;> simp [tableNext, hst, hout]

theorem meetsTable_ignoreSync1 (hst : s.st = .sawSync1) (hb : b ≠ 0xB5#8) (hb2 : b ≠ 0x62#8) (hout : s.out = .none) :
    MeetsTable .ignoreSync1 s b := by
  refine ⟨_, exec_ignoreSync1 s, rfl, ?_⟩
  constructor <;> simp [tableNext, hst, hb, hb2, hout]

theorem meetsTable_cls (hst : s.st = .sawSync2) (hb : b ≠ 0xB5#8) (hout : s.out = .none) : MeetsTable (.cls b) s b := by
  refine ⟨_, exec_cls b s, rfl, ?_⟩
  constructor <;> simp [tableNext, hst, hb, hout]

theorem meetsTable_ident (hst : s.st = .haveClass) (hb : b ≠ 0xB5#8) (hout : s.out = .none) :
    MeetsTable (.ident b) s b := by
  refine ⟨_, exec_ident b s, rfl, ?_⟩
  constructor <;> simp [tableNext, hst, hb, hout]

theorem meetsTable_lenlo (hst : s.st = .haveId) (hb : b ≠ 0xB5#8) (hout : s.out = .none) :
    MeetsTable (.lenlo b) s b := by
  refine ⟨_, exec_lenlo b s, rfl, ?_⟩
  constructor <;> simp [tableNext, hst, hb, hout, lenLow_toNat]

theorem meetsTable_lenhi (hst : s.st = .haveLengthLow) (hb : b ≠ 0xB5#8) (hout : s.out = .none) :
    MeetsTable (.lenhi b) s b := by
  refine ⟨_, exec_lenhi b s, ?_⟩
  have hlen := lenNext_toNat_eq_declaredLen b s
  rcases lenhi_cases Config.hardware b s with ⟨hover, heq⟩ | ⟨hfit, hzero, heq⟩ | ⟨hfit, hpos, heq⟩ <;> rw [heq]
  · refine ⟨rfl, ?_⟩
    have hover' : 1000 < declaredLen s b := hlen ▸ hover
    constructor <;> simp [tableNext, hst, hb, hlen, hover']
  · refine ⟨rfl, ?_⟩
    have hzero' : declaredLen s b = 0 := (lenNext_eq_zero_iff b s).1 hzero
    constructor <;> simp [tableNext, hst, hb, hlen, hzero', hout]
  · refine ⟨rfl, ?_⟩
    have hfit' : ¬ 1000 < declaredLen s b := Nat.not_lt_of_le (hlen ▸ hfit)
    have hpos' : declaredLen s b ≠ 0 := mt (lenNext_eq_zero_iff b s).2 hpos
    constructor <;> simp [tableNext, hst, hb, hlen, hfit', hpos', hout]

theorem meetsTable_payload (hst : s.st = .haveLengthHigh) (hcnt : s.cnt.toNat < 1000) (hb : b ≠ 0xB5#8)
    (hout : s.out = .none) : MeetsTable (.payload b) s b := by
  refine ⟨_, payload_next Config.hardware b s hcnt, rfl, ?_⟩
  constructor <;> simp [tableNext, hst, hb, hout, cnt_succ_toNat hcnt, cnt_succ_eq_iff hcnt, Memory.cell_store,
    -BitVec.toNat_add]

theorem meetsTable_cka (hst : s.st = .havePayload) (hb : b ≠ 0xB5#8) (hout : s.out = .none) :
    MeetsTable (.cka b) s b := by
  refine ⟨_, exec_cka b s, ?_⟩
  by_cases hck : b = s.ckA
  · rw [if_pos hck]
    refine ⟨rfl, ?_⟩
    constructor <;> simp [tableNext, hst, hb, ← hck, hout]
  · rw [if_neg hck]
    refine ⟨rfl, ?_⟩
    constructor <;> simp [tableNext, hst, hb, hck, hout]

theorem meetsTable_ckb (hst : s.st = .haveChecksumA) (hb : b ≠ 0xB5#8) (hout : s.out = .none) :
    MeetsTable (.ckb b) s b := by
  refine ⟨_, exec_ckb b s, ?_⟩
  rcases ckb_cases Config.hardware b s with ⟨hck, heq⟩ | ⟨hck, heq⟩ <;> rw [heq]
  · refine ⟨rfl, ?_⟩
    constructor <;> simp [tableNext, delivered, hst, hb, ← hck, frameRecord_isRecordOf]
  · refine ⟨rfl, ?_⟩
    constructor <;> simp [tableNext, hst, hb, hck, hout]

/-- The operation of the chain meets its row of the table, where the cell PAYLOAD writes exists. -/
theorem meetsTable_chainOp (hcnt : s.st = .haveLengthHigh → s.cnt.toNat < 1000) (hout : s.out = .none) :
    MeetsTable (chainOp Config.hardware s.st b) s b := by
  rcases chainOp_cases Config.hardware s.st b with ⟨rfl, hop⟩ | ⟨-, ⟨hst, rfl⟩, hop⟩ | ⟨hb, hb2, hop⟩ <;> rw [hop]
  · exact meetsTable_resync hout
  · exact meetsTable_sync2 hst hout
  · cases hst : s.st with
    | idle => exact meetsTable_ignoreIdle hst hb hout
    | sawSync1 => exact meetsTable_ignoreSync1 hst hb (fun h => hb2 ⟨hst, h⟩) hout
    | sawSync2 => exact meetsTable_cls hst hb hout
    | haveClass => exact meetsTable_ident hst hb hout
    | haveId => exact meetsTable_lenlo hst hb hout
    | haveLengthLow => exact meetsTable_lenhi hst hb hout
    | haveLengthHigh => exact meetsTable_payload hst (hcnt hst) hb hout
    | havePayload => exact meetsTable_cka hst hb hout
    | haveChecksumA => exact meetsTable_ckb hst hb hout

end Rows

/-- A step at an edge with a byte performs the chain's operation on the state with its outputs cleared. -/
theorem step_of_byte {s : State} {e : Edge} {rest : List Edge} (hin : s.inputs = e :: rest) (hrst : e.rst = false)
    (hvalid : e.inValid = true) : step s = exec (chainOp Config.hardware s.st e.inByte) (s.begin rest) := by
  rw [step, stepWith, hin]
  simp [clockEdge, hrst, hvalid, feed_eq]

/-- Settles O41: the step performs the chain's operation, and that operation's row of the table holds of it. -/
theorem stepFollowsTheNextStateTable : Obligations.StepFollowsTheNextStateTable := by
  unfold Obligations.StepFollowsTheNextStateTable
  intro s e rest hin hrst hvalid hcnt
  refine ⟨decodeSB_selectorSB .., ?_⟩
  obtain ⟨t, hexec, hinputs, hcols⟩ := meetsTable_chainOp (s := s.begin rest) (b := e.inByte) hcnt rfl
  exact ⟨t, (step_of_byte hin hrst hvalid).trans hexec, hinputs, hcols.st, hcols.cls, hcols.id, hcols.len, hcols.cnt,
    hcols.sums, hcols.cells, hcols.output⟩

end Sys2Proof.Machine
end

section
/-! The header operations (41_header.md): CLASS, ID and LENLO of R130 to R132, and when a frame state's own operation is
selected. -/

namespace Sys2Proof

/-! ## The operation a state's own row selects -/

@[simp] theorem Op.op_instr (o : Op) (b : Byte) : (o.instr b).op = o := by
  cases o <;> rfl

theorem SeqState.rowOp_inj {st k : SeqState} : st.rowOp = k.rowOp ↔ st = k := by
  cases st <;> cases k <;> simp [SeqState.rowOp]

namespace Machine

/-- A frame state's own operation has the `byte` field as its operand (30_encoding.md R84). -/
theorem rowOp_instr_inj {k : SeqState} (hk : SeqState.inFrame k = true) {x b : Byte} :
    k.rowOp.instr x = k.rowOp.instr b ↔ b = x := by
  cases k <;> simp [SeqState.inFrame, SeqState.rowOp, Op.instr, eq_comm] at hk ⊢

theorem rowOp_instr_eq_rowOp_instr {st k : SeqState} (hk : SeqState.inFrame k = true) {x b : Byte} :
    st.rowOp.instr x = k.rowOp.instr b ↔ st = k ∧ b = x := by
  constructor
  · intro h
    obtain rfl : st = k := SeqState.rowOp_inj.1 (by simpa using congrArg Instr.op h)
    exact ⟨rfl, (rowOp_instr_inj hk).1 h⟩
  · rintro ⟨rfl, rfl⟩
    rfl

/-- The operation of a state in a frame is selected in that state alone, on every byte but the first sync byte. -/
theorem chainOp_eq_rowOp_instr {c : Config} {st k : SeqState} (hk : SeqState.inFrame k = true) {x b : Byte} :
    chainOp c st x = k.rowOp.instr b ↔ st = k ∧ x ≠ c.sync1 ∧ b = x := by
  rcases chainOp_cases c st x with ⟨h1, hop⟩ | ⟨-, ⟨rfl, -⟩, hop⟩ | ⟨h1, -, hop⟩ <;> rw [hop]
  · simp [h1, (rowOp_instr_ne_resync k b).symm]
  · have hne : SeqState.sawSync1 ≠ k := by
      rintro rfl
      cases hk
    simp [hne, (rowOp_instr_ne_sync2 k b).symm]
  · simp [h1, rowOp_instr_eq_rowOp_instr hk]

theorem decodeSB_eq_rowOp_instr {c : Config} {k : SeqState} (hk : SeqState.inFrame k = true) (st : SeqState) (x b : Byte) :
    decodeSB c (selectorSB st x) = .ok (k.rowOp.instr b) ↔ st = k ∧ x ≠ c.sync1 ∧ b = x :=
  decodeSB_eq_ok_iff.trans (chainOp_eq_rowOp_instr hk)

/-! ## The checksum step as numbers (43_checksum.md R170) -/

theorem ckUpdate_ckA_toNat (b : Byte) (s : State) : (ckUpdate b s).ckA.toNat = (s.ckA.toNat + b.toNat) % 256 :=
  BitVec.toNat_add s.ckA b

/-- The second sum takes the new first. -/
theorem ckUpdate_ckB_toNat (b : Byte) (s : State) :
    (ckUpdate b s).ckB.toNat = (s.ckB.toNat + (ckUpdate b s).ckA.toNat) % 256 :=
  BitVec.toNat_add s.ckB (s.ckA + b)

/-! ## The three operations -/

/-- Settles O16: CLASS is the operation of `SawSync2`'s row, and its one write beside the checksum and `st` is `cls`. -/
theorem classRecordsTheByte : Obligations.ClassRecordsTheByte := by
  unfold Obligations.ClassRecordsTheByte
  refine ⟨decodeSB_eq_rowOp_instr (k := .sawSync2) rfl, fun b s => ?_⟩
  exact ⟨_, exec_cls b s, rfl, rfl, ckUpdate_ckA_toNat b s, ckUpdate_ckB_toNat b s, rfl, rfl, rfl, fun _ => rfl,
    ⟨rfl, rfl⟩, rfl, rfl⟩

/-- Settles O17: ID is the operation of `HaveClass`'s row, and its one write beside the checksum and `st` is `id`. -/
theorem idRecordsTheByte : Obligations.IdRecordsTheByte := by
  unfold Obligations.IdRecordsTheByte
  refine ⟨decodeSB_eq_rowOp_instr (k := .haveClass) rfl, fun b s => ?_⟩
  exact ⟨_, exec_ident b s, rfl, rfl, ckUpdate_ckA_toNat b s, ckUpdate_ckB_toNat b s, rfl, rfl, rfl, fun _ => rfl,
    ⟨rfl, rfl⟩, rfl, rfl⟩

/-- Settles O18: LENLO is the operation of `HaveId`'s row, and the zero extension it writes has the byte's value whatever
`len` held. -/
theorem lenloReplacesTheWholeLength : Obligations.LenloReplacesTheWholeLength := by
  unfold Obligations.LenloReplacesTheWholeLength
  refine ⟨decodeSB_eq_rowOp_instr (k := .haveId) rfl, fun b s => ?_⟩
  exact ⟨_, exec_lenlo b s, rfl, lenLow_toNat b, ckUpdate_ckA_toNat b s, ckUpdate_ckB_toNat b s, rfl, rfl, rfl,
    fun _ => rfl, ⟨rfl, rfl⟩, rfl, rfl⟩

end Machine

end Sys2Proof
end

section
/-! The payload operation (42_payload.md): PAYLOAD of R150 where the cell it writes exists. -/

namespace Sys2Proof.Machine

/-- Settles O20: PAYLOAD is the operation of `HaveLengthHigh`'s row; below the capacity it stores at the old count, which does
not wrap when it is counted up, so the 16-bit comparison with `len` is the comparison of the numbers. -/
theorem payloadStoresOneByteAtTheOldCount : Obligations.PayloadStoresOneByteAtTheOldCount := by
  unfold Obligations.PayloadStoresOneByteAtTheOldCount
  refine ⟨decodeSB_eq_rowOp_instr (k := .haveLengthHigh) rfl, fun b s hcnt => ?_⟩
  have hnext := (exec_payload b s).trans (payload_next Config.hardware b s hcnt)
  have hst : (if s.cnt + 1 = s.len then SeqState.havePayload else .haveLengthHigh) =
      if s.cnt.toNat + 1 = s.len.toNat then .havePayload else .haveLengthHigh :=
    if_congr (cnt_succ_eq_iff hcnt) rfl rfl
  exact ⟨_, hnext, Memory.cell_store_same .., fun _ => Memory.cell_store_other s.buf b, cnt_succ_toNat hcnt, hst,
    ckUpdate_ckA_toNat b s, ckUpdate_ckB_toNat b s, rfl, rfl, rfl, ⟨rfl, rfl⟩, rfl, rfl⟩

end Sys2Proof.Machine
end

section
/-! The checksum (43_checksum.md): the update of R170 and who makes it, and the two comparisons CKA and CKB of R174 and
R175. -/

namespace Sys2Proof.Machine

/-! ## Who makes the update (43_checksum.md R170) -/

/-- Both accumulators are the same in `t` as in `s`. -/
def SameSums (s t : State) : Prop := t.ckA = s.ckA ∧ t.ckB = s.ckB

/-- LENHI makes the update on all three of its outcomes. -/
theorem lenhi_sameSums (c : Config) (b : Byte) (s : State) : SameSums (ckUpdate b s) (lenhi c b s) := by
  rcases lenhi_cases c b s with ⟨-, heq⟩ | ⟨-, -, heq⟩ | ⟨-, -, heq⟩ <;> rw [heq] <;> exact ⟨rfl, rfl⟩

theorem ckb_sameSums (c : Config) (b : Byte) (s : State) : SameSums s (ckb c b s) := by
  rcases ckb_cases c b s with ⟨-, heq⟩ | ⟨-, heq⟩ <;> rw [heq] <;> exact ⟨rfl, rfl⟩

section Answered

variable {i : Instr} {s t : State} (h : exec i s = .next t)
include h

/-- An operation that folds in a byte leaves exactly one update in the accumulators. -/
theorem exec_sameSums_of_some {b : Byte} (hb : checksumByte i = some b) : SameSums (ckUpdate b s) t := by
  cases i with
  | resync | sync2 | ignoreIdle | ignoreSync1 | cka | ckb | decPosition | decDop | decVelocity | decStatus |
    decUnhandled => cases hb
  | cls | ident | lenlo =>
    cases hb
    cases h
    exact ⟨rfl, rfl⟩
  | lenhi =>
    cases hb
    cases h
    exact lenhi_sameSums ..
  | payload =>
    cases hb
    obtain ⟨-, rfl⟩ := payload_cases h
    exact ⟨rfl, rfl⟩

/-- Of the operations that fold in no byte, SYNC2 alone writes an accumulator. -/
theorem exec_sameSums_of_none (hb : checksumByte i = none) (hi : i ≠ .sync2) : SameSums s t := by
  cases i with
  | cls | ident | lenlo | lenhi | payload => cases hb
  | sync2 => exact absurd rfl hi
  | resync =>
    cases (exec_resync s).symm.trans h
    exact ⟨rfl, rfl⟩
  | cka b =>
    cases (exec_cka b s).symm.trans h
    split <;> exact ⟨rfl, rfl⟩
  | ckb =>
    cases h
    exact ckb_sameSums ..
  | ignoreIdle | ignoreSync1 | decPosition | decDop | decVelocity | decStatus | decUnhandled =>
    cases h
    exact ⟨rfl, rfl⟩

end Answered

/-- Settles O36: both sums of one update are additions of bytes, and an operation's answer keeps the sums of the updated state
where the operation folds in a byte, and those of the state before where it does not. -/
theorem checksumUpdateAddsModulo256 : Obligations.ChecksumUpdateAddsModulo256 := by
  unfold Obligations.ChecksumUpdateAddsModulo256
  exact ⟨fun b s => ⟨ckUpdate_ckA_toNat b s, ckUpdate_ckB_toNat b s, rfl⟩,
    fun _ _ _ h => ⟨fun _ => exec_sameSums_of_some h, exec_sameSums_of_none h⟩⟩

/-! ## The two comparisons (43_checksum.md R174, R175) -/

/-- Settles O22: CKA is the operation of `HavePayload`'s row; on either outcome of the comparison it writes `st`, and on
inequality the label. -/
theorem ckaComparesTheFirstByte : Obligations.CkaComparesTheFirstByte := by
  unfold Obligations.CkaComparesTheFirstByte
  refine ⟨decodeSB_eq_rowOp_instr (k := .havePayload) rfl, fun b s => ⟨_, exec_cka b s, ?_⟩⟩
  split <;> exact ⟨rfl, rfl, ⟨rfl, rfl, rfl, rfl, rfl, rfl⟩, fun _ => rfl, ⟨rfl, rfl⟩, rfl⟩

/-- Settles O23: CKB is the operation of `HaveChecksumA`'s row; on a mismatch it writes `st` and the label, and on a match the
record it puts out is the one a delivery from this state must put out. -/
theorem ckbDeliversTheRecordOnAMatch : Obligations.CkbDeliversTheRecordOnAMatch := by
  unfold Obligations.CkbDeliversTheRecordOnAMatch
  refine ⟨decodeSB_eq_rowOp_instr (k := .haveChecksumA) rfl, fun b s => ⟨fun hne => ?_, ?_⟩⟩
  · have hexec := (exec_ckb b s).trans (congrArg _ (ckb_mismatch Config.hardware s hne))
    exact ⟨_, hexec, rfl, rfl, rfl, ⟨rfl, rfl, rfl, rfl, rfl, rfl⟩, fun _ => rfl, ⟨rfl, rfl⟩⟩
  · rintro rfl
    have hexec := (exec_ckb s.ckB s).trans (congrArg _ (ckb_match Config.hardware s))
    exact ⟨_, _, hexec, rfl, rfl, ⟨rfl, rfl, rfl, rfl, rfl, rfl⟩, fun _ => rfl, rfl, rfl, frameRecord_isRecordOf s⟩

end Sys2Proof.Machine
end

section
/-! The output of a step (00_scope.md R8): which operations write it, and what a step that puts out a record is. -/

namespace Sys2Proof.Machine

/-- LENHI alone puts out a rejection and CKB on a match alone a record; every other operation, and these two otherwise, keep
the output. -/
theorem exec_out_cases {i : Instr} {s t : State} (h : exec i s = .next t) :
    t.out = s.out ∨ (∃ b, i = .lenhi b ∧ Config.hardware.cap < t.len.toNat ∧ t.out = .overLength t.len) ∨
    (i = .ckb s.ckB ∧ t = delivered Config.hardware s) := by
  cases i with
  | sync2 | ignoreIdle | ignoreSync1 | cls | ident | lenlo | decPosition | decDop | decVelocity | decStatus |
    decUnhandled =>
    cases h
    exact .inl rfl
  | resync =>
    cases (exec_resync s).symm.trans h
    exact .inl rfl
  | lenhi b =>
    cases (exec_lenhi b s).symm.trans h
    rcases lenhi_cases Config.hardware b s with ⟨hover, heq⟩ | ⟨-, -, heq⟩ | ⟨-, -, heq⟩ <;> rw [heq]
    · exact .inr (.inl ⟨b, rfl, hover, rfl⟩)
    · exact .inl rfl
    · exact .inl rfl
  | payload =>
    obtain ⟨-, rfl⟩ := payload_cases h
    exact .inl rfl
  | cka b =>
    cases (exec_cka b s).symm.trans h
    left
    split <;> rfl
  | ckb =>
    rcases exec_ckb_cases h with ⟨rfl, rfl⟩ | ⟨-, rfl⟩
    · exact .inr (.inr ⟨rfl, rfl⟩)
    · exact .inl rfl

/-- A step puts out a record only as CKB on a match: at an edge with a byte, in `HaveChecksumA`, the byte being `ckB`. -/
theorem step_frame_cases {s t : State} {r : FrameRecord} (h : step s = .next t) (hr : t.out = .frame r) :
    ∃ e rest, s.inputs = e :: rest ∧ e.rst = false ∧ e.inValid = true ∧ s.st = .haveChecksumA ∧
      e.inByte ≠ Config.hardware.sync1 ∧ e.inByte = s.ckB ∧ t = delivered Config.hardware (s.begin rest) := by
  rcases step_cases s with ⟨-, hs⟩ | ⟨e, rest, hin, ⟨-, hs⟩ | ⟨hrst, hvalid, hs⟩ | ⟨-, -, hs⟩⟩ <;> rw [hs] at h
  · cases h
    cases hr
  · cases h
    cases hr
  · rw [feed_eq] at h
    rcases exec_out_cases h with hout | ⟨b, -, -, hout⟩ | ⟨hop, rfl⟩
    · cases hout.symm.trans hr
    · cases hout.symm.trans hr
    · obtain ⟨hst, hsync, hck⟩ := (chainOp_eq_rowOp_instr (k := .haveChecksumA) rfl).1 hop
      exact ⟨e, rest, hin, hrst, hvalid, hst, hsync, hck.symm, rfl⟩
  · cases h
    cases hr

/-- Settles O50: the step is a delivering CKB, whose record has the kind of `id` and the fields `fieldsOf` reads for that
kind. -/
theorem deliveredFrameHasExactlyItsKindsFields : Obligations.DeliveredFrameHasExactlyItsKindsFields := by
  unfold Obligations.DeliveredFrameHasExactlyItsKindsFields
  intro s t r h hr
  obtain ⟨e, rest, -, -, -, -, -, -, rfl⟩ := step_frame_cases h hr
  cases hr
  exact ⟨rfl, fieldsOf_kind .., fieldsOf_valueColumn ..⟩

end Sys2Proof.Machine
end

section
/-! The kind of an id (44_unpack_dispatch.md R196) and its row of format ID (30_encoding.md R91). -/

namespace Sys2Proof.Machine

/-! ## The kinds of the 256 ids -/

/-- The ids of a kind, as the rule lists them: one for each handled kind, and every other one. -/
def IdHasKind (i : Byte) : Kind → Prop
  | .position => i = 0x02
  | .dop => i = 0x04
  | .velocity => i = 0x12
  | .status => i = 0x06
  | .unhandled => i ≠ 0x02 ∧ i ≠ 0x04 ∧ i ≠ 0x12 ∧ i ≠ 0x06

theorem kindOf_eq_iff {i : Byte} {k : Kind} : kindOf i = k ↔ IdHasKind i k := by
  constructor
  · rintro rfl
    unfold kindOf
    split_ifs with h2 h4 h12 h6
    exacts [h2, h4, h12, h6, ⟨h2, h4, h12, h6⟩]
  · intro h
    cases k with
    | position | dop | velocity | status =>
      cases h
      rfl
    | unhandled =>
      obtain ⟨h2, h4, h12, h6⟩ := h
      rw [kindOf, if_neg h2, if_neg h4, if_neg h12, if_neg h6]

/-! ## The rows of format ID -/

/-- The row of the table that names a kind's decode. -/
def kindRow : Kind → Row 8
  | .position => ⟨.decPosition, 0x02, 0xFF, 0⟩
  | .dop => ⟨.decDop, 0x04, 0xFF, 0⟩
  | .velocity => ⟨.decVelocity, 0x12, 0xFF, 0⟩
  | .status => ⟨.decStatus, 0x06, 0xFF, 0⟩
  | .unhandled => ⟨.decUnhandled, 0x00, 0x00, 1⟩

/-- The table of format ID is one row for each kind. -/
theorem mem_idRows {q : Row 8} : q ∈ idRows ↔ ∃ k, q = kindRow k := by
  have hrows : idRows = [.position, .dop, .velocity, .status, .unhandled].map kindRow := rfl
  rw [hrows, List.mem_map]
  constructor
  · rintro ⟨k, -, rfl⟩
    exact ⟨k, rfl⟩
  · rintro ⟨k, rfl⟩
    exact ⟨k, by cases k <;> simp, rfl⟩

/-- A row whose mask keeps the whole id matches one id. -/
theorem hits_id (o : Op) (p : Nat) (i pat : Byte) : Row.hits ⟨o, pat, 0xFF, p⟩ i = true ↔ i = pat := by
  have hmask : (0xFF : Byte) = BitVec.allOnes 8 := rfl
  rw [Row.hits, hmask, BitVec.and_allOnes, beq_iff_eq]

/-- An id's selector is matched by its own kind's row and by the fallback row. -/
theorem kindRow_hits {k : Kind} {i : Byte} : (kindRow k).hits i = true ↔ k = kindOf i ∨ k = .unhandled := by
  cases k with
  | position | dop | velocity | status =>
    rw [kindRow, hits_id, eq_comm (b := kindOf i), kindOf_eq_iff]
    exact (or_iff_left nofun).symm
  | unhandled => simp [kindRow, Row.hits]

/-- The fallback row gives way to the others. -/
theorem kindRow_priority_lt {k : Kind} (hk : k ≠ .unhandled) : (kindRow k).priority < (kindRow .unhandled).priority := by
  cases k with
  | position | dop | velocity | status => exact Nat.zero_lt_one
  | unhandled => exact absurd rfl hk

theorem selectRow_idRows (i : Byte) : selectRow idRows i = some (kindRow (kindOf i)) := by
  refine selectRow_eq_of_lowest (mem_idRows.2 ⟨_, rfl⟩) (kindRow_hits.2 (.inl rfl)) fun q hq hit => ?_
  obtain ⟨k, rfl⟩ := mem_idRows.1 hq
  rcases kindRow_hits.1 hit with rfl | rfl
  · exact .inl rfl
  · by_cases hk : kindOf i = .unhandled
    · exact .inl (congrArg kindRow hk.symm)
    · exact .inr (kindRow_priority_lt hk)

@[simp] theorem kindRow_instr (k : Kind) (i : Byte) : (kindRow k).op.instr i = kindInstr k := by
  cases k <;> rfl

/-! ## The decode of format ID -/

theorem decodeID_eq (i : Byte) : decodeID i = .ok (kindInstr (kindOf i)) := by
  rw [decodeID_of_selectRow (selectRow_idRows i), kindRow_instr]

theorem kindInstr_inj {k k' : Kind} : kindInstr k = kindInstr k' ↔ k = k' := by
  cases k <;> cases k' <;> simp [kindInstr]

/-- The ids whose decode is that of a given kind. -/
theorem decodeID_eq_ok_iff {i : Byte} {k : Kind} : decodeID i = .ok (kindInstr k) ↔ IdHasKind i k := by
  rw [decodeID_eq, Except.ok.injEq, kindInstr_inj, kindOf_eq_iff]

/-- Settles O5: of the rows an id matches, its own kind's and the fallback, the first has the lower priority number. -/
theorem idSelectsTheKind : Obligations.IdSelectsTheKind := by
  unfold Obligations.IdSelectsTheKind
  exact ⟨decodeID_eq, rfl, rfl, rfl, rfl, fun i h2 h4 h12 h6 => kindOf_eq_iff.2 ⟨h2, h4, h12, h6⟩⟩

end Sys2Proof.Machine
end

section
/-! Little-endian reads (44_unpack_dispatch.md R190, R192, R193): `le16` and `le32` are `MemRead` of two and of four bytes, that is
the sum of their cells. -/

namespace Sys2Proof.Machine

/-- A byte appended below a value is its lowest base-256 digit. -/
theorem toNat_append_byte {w : Nat} (v : BitVec w) (b : Byte) : (v ++ b).toNat = b.toNat + 256 * v.toNat := by
  rw [BitVec.toNat_append, ← Nat.shiftLeft_add_eq_or_of_lt b.isLt, Nat.shiftLeft_eq, Nat.add_comm, Nat.mul_comm]

theorem le16_toNat (m : Memory) (o : Nat) :
    (le16 m o).toNat = (Memory.cell m o).toNat + 256 * (Memory.cell m (o + 1)).toNat :=
  toNat_append_byte ..

theorem le32_toNat (m : Memory) (o : Nat) :
    (le32 m o).toNat = (Memory.cell m o).toNat + 256 * (Memory.cell m (o + 1)).toNat +
      65536 * (Memory.cell m (o + 2)).toNat + 16777216 * (Memory.cell m (o + 3)).toNat := by
  rw [le32, toNat_append_byte, toNat_append_byte, toNat_append_byte]
  omega

theorem le16_toNat_eq_leSum (m : Memory) (o : Nat) : (le16 m o).toNat = leSum m o 2 := by
  rw [le16_toNat]
  simp only [leSum, Nat.add_zero]
  omega

theorem le32_toNat_eq_leSum (m : Memory) (o : Nat) : (le32 m o).toNat = leSum m o 4 := by
  rw [le32_toNat]
  simp only [leSum, Nat.add_zero]
  omega

theorem memRead_two {c : Config} (m : Memory) {o : Nat} (h : o + 2 ≤ c.cap) :
    memRead c m o 2 = some (le16 m o).toNat := by
  rw [le16_toNat_eq_leSum]
  exact if_pos ⟨.inr (.inl rfl), h⟩

theorem memRead_four {c : Config} (m : Memory) {o : Nat} (h : o + 4 ≤ c.cap) :
    memRead c m o 4 = some (le32 m o).toNat := by
  rw [le32_toNat_eq_leSum]
  exact if_pos ⟨.inr (.inr rfl), h⟩

/-- Settles O31: an appended byte is a base-256 digit, and the sum of the digits is what `MemRead` answers. -/
theorem littleEndianReadIsTheSumOfItsBytes : Obligations.LittleEndianReadIsTheSumOfItsBytes := by
  unfold Obligations.LittleEndianReadIsTheSumOfItsBytes
  exact fun c m o => ⟨fun h => ⟨memRead_two m h, le16_toNat m o⟩, fun h => ⟨memRead_four m h, le32_toNat m o⟩⟩

@[simp] theorem fieldU16_toNat (m : Memory) (o : Nat) : (fieldU16 m o).toNat = leSum m o 2 := le16_toNat_eq_leSum m o

@[simp] theorem fieldU32_toNat (m : Memory) (o : Nat) : (fieldU32 m o).toNat = leSum m o 4 := le32_toNat_eq_leSum m o

end Sys2Proof.Machine
end

section
/-! The kind decodes DEC_DOP, DEC_STATUS and DEC_UNHANDLED (44_unpack_dispatch.md R205, R207, R208). -/

namespace Sys2Proof.Machine

/-- Settles O26: id `04` is the one of kind DOP, and each field is the unsigned read at its offset. -/
theorem decDopReadsItsFields : Obligations.DecDopReadsItsFields := by
  unfold Obligations.DecDopReadsItsFields
  refine ⟨fun _ => decodeID_eq_ok_iff (k := .dop), fun s => ?_⟩
  exact ⟨_, dopFields s.buf, exec_kindInstr .dop s, rfl, fieldU32_toNat .., fieldU16_toNat .., fieldU16_toNat ..,
    fieldU16_toNat .., fieldU16_toNat .., fieldU16_toNat .., fieldU16_toNat .., fieldU16_toNat .., rfl,
    ⟨rfl, rfl, rfl, rfl, rfl, rfl⟩, fun _ => rfl, rfl, rfl, rfl⟩

/-- Settles O28: id `06` is the one of kind STATUS, and its field is the read at offset 0, in which `len` takes no part. -/
theorem decStatusReadsItsField : Obligations.DecStatusReadsItsField := by
  unfold Obligations.DecStatusReadsItsField
  refine ⟨fun _ => decodeID_eq_ok_iff (k := .status), fun s => ?_⟩
  exact ⟨_, statusFields s.buf, exec_kindInstr .status s, rfl, fieldU32_toNat .., rfl, ⟨rfl, rfl, rfl, rfl, rfl, rfl⟩,
    fun _ => rfl, rfl, rfl, rfl⟩

/-- Settles O29: DEC_UNHANDLED is the decode of the ids of kind UNHANDLED, and a delivery with such an id has the raw registers
in its record, that kind's empty fields, and the label. -/
theorem decUnhandledDecodesNoField : Obligations.DecUnhandledDecodesNoField := by
  unfold Obligations.DecUnhandledDecodesNoField
  refine ⟨fun _ => decodeID_eq_ok_iff (k := .unhandled), fun s => ?_, fun s hid => ?_⟩
  · exact ⟨_, exec_kindInstr .unhandled s, rfl, rfl, rfl, ⟨rfl, rfl, rfl, rfl, rfl, rfl⟩, fun _ => rfl, rfl, rfl⟩
  · have hkind : kindOf s.id = .unhandled := kindOf_eq_iff.2 ((decodeID_eq_ok_iff (k := .unhandled)).1 hid)
    have hexec := (exec_ckb s.ckB s).trans (congrArg _ (ckb_match Config.hardware s))
    have hfields : fieldsOf (kindOf s.id) s.buf = .unhandled := by rw [hkind]; rfl
    have hcode : some (Kind.code (kindOf s.id)) = some 4 := by rw [hkind]; rfl
    exact ⟨_, _, hexec, rfl, rfl, rfl, rfl, recordBytes_payloadOf s, hfields, if_pos hkind, rfl, hcode⟩

end Sys2Proof.Machine
end

section
/-! Encodings (30_encoding.md): the bytes of a selector are read back as it, what decodes is a selector of one of the nine
states, and a register forced to a code that names no state. -/

namespace Sys2Proof

/-! ## A selector and its two fields -/

theorem stateField_append (a : StCode) (b : Byte) : stateField (a ++ b) = a := BitVec.extractLsb'_append_eq_left

/-- A selector is its state code and its byte. -/
theorem stateField_append_byteField (sel : BitVec 12) : stateField sel ++ byteField sel = sel :=
  BitVec.extractLsb'_append_extractLsb'_eq_extractLsb' (start₁ := 0) (len₁ := 8) (len₂ := 4) rfl |>.trans (by simp)

/-- The bytes of a selector of format SB decode as the selector does. -/
theorem decodeBytes_bytes_sb (c : Config) (sel : BitVec 12) :
    decodeBytes c (Selector.sb sel).bytes = decodeSB c sel := by
  have hhigh : (0#4 ++ stateField sel).extractLsb' 4 4 = 0 := BitVec.extractLsb'_append_eq_left
  have hlow : (0#4 ++ stateField sel).extractLsb' 0 4 = stateField sel := BitVec.extractLsb'_append_eq_right
  rw [Selector.bytes, decodeBytes, if_pos hhigh, hlow, stateField_append_byteField]

theorem SeqState.code_of_ofCode {a : StCode} {st : SeqState} (h : SeqState.ofCode a = some st) : a = st.code := by
  revert a
  cases st <;> decide

theorem SeqState.code_le_eight (st : SeqState) : st.code.toNat ≤ 8 := by
  cases st <;> decide

/-- The codes 9 to 15 name no state (10_state.md R31). -/
theorem SeqState.ofCode_eq_none {a : StCode} (h : 9 ≤ a.toNat) : SeqState.ofCode a = none := by
  refine Option.eq_none_iff_forall_ne_some.2 fun st hst => ?_
  have hle := SeqState.code_le_eight st
  rw [← SeqState.code_of_ofCode hst] at hle
  omega

/-- Only selectors of the nine states decode. -/
theorem exists_selectorSB_of_decodeSB {c : Config} {sel : BitVec 12} {i : Instr} (h : decodeSB c sel = .ok i) :
    ∃ st b, sel = selectorSB st b := by
  unfold decodeSB at h
  cases hst : SeqState.ofCode (stateField sel) with
  | none =>
    rw [hst] at h
    cases h
  | some st =>
    refine ⟨st, byteField sel, ?_⟩
    rw [selectorSB, ← SeqState.code_of_ofCode hst, stateField_append_byteField]

namespace Machine

/-! ## What decodes is well-formed, and what is well-formed is decoded -/

theorem rowOp_instr_wellFormed {c : Config} (st : SeqState) {b : Byte} (hb : b ≠ c.sync1) :
    (st.rowOp.instr b).wellFormed c = true := by
  cases st <;> simp [SeqState.rowOp, Op.instr, Instr.wellFormed, operandOk, hb]

/-- The first sync byte is RESYNC's before it can be an operand. -/
theorem chainOp_wellFormed (c : Config) (st : SeqState) (b : Byte) : (chainOp c st b).wellFormed c = true := by
  rcases chainOp_cases c st b with ⟨-, hop⟩ | ⟨-, -, hop⟩ | ⟨hb, -, hop⟩ <;> rw [hop]
  · rfl
  · rfl
  · exact rowOp_instr_wellFormed st hb

theorem kindInstr_wellFormed (c : Config) (k : Kind) : (kindInstr k).wellFormed c = true := by
  cases k <;> rfl

/-- Settles O3: an operand comes only from a selector of one of the nine states, where the chain has taken the first sync byte
out. -/
theorem decodedInstructionIsWellFormed : Obligations.DecodedInstructionIsWellFormed := by
  unfold Obligations.DecodedInstructionIsWellFormed
  intro bytes i h
  match bytes with
  | [] => cases h
  | [x] =>
    cases (decodeID_eq x).symm.trans h
    exact kindInstr_wellFormed ..
  | [lo, hi] =>
    rw [decodeBytes] at h
    split at h
    · obtain ⟨st, b, hsel⟩ := exists_selectorSB_of_decodeSB h
      rw [hsel, decodeSB_eq_ok_iff] at h
      exact h ▸ chainOp_wellFormed ..
    · cases h
  | _ :: _ :: _ :: _ => cases h

/-- An instruction whose encoding is a selector that the chain gives that instruction is read back. -/
theorem decodeBytes_encode_of_selectorSB {c : Config} {i : Instr} {st : SeqState} {b : Byte}
    (henc : encode c i = .sb (selectorSB st b)) (hop : chainOp c st b = i) :
    decodeBytes c (encode c i).bytes = .ok i := by
  rw [henc, decodeBytes_bytes_sb, decodeSB_selectorSB, hop]

theorem decodeBytes_encode_kindInstr (c : Config) (k : Kind) :
    decodeBytes c (encode c (kindInstr k)).bytes = .ok (kindInstr k) := by
  cases k <;> rfl

theorem encode_rowOp_instr {c : Config} {k : SeqState} (hk : SeqState.inFrame k = true) (b : Byte) :
    encode c (k.rowOp.instr b) = .sb (selectorSB k b) := by
  cases k with
  | idle | sawSync1 => cases hk
  | sawSync2 | haveClass | haveId | haveLengthLow | haveLengthHigh | havePayload | haveChecksumA => rfl

/-- The operation of a frame state is encoded as that state's selector, and read back. -/
theorem decodeBytes_encode_rowOp_instr {c : Config} {k : SeqState} (hk : SeqState.inFrame k = true) {b : Byte}
    (hb : operandOk c b = true) : decodeBytes c (encode c (k.rowOp.instr b)).bytes = .ok (k.rowOp.instr b) :=
  decodeBytes_encode_of_selectorSB (encode_rowOp_instr hk b) ((chainOp_eq_rowOp_instr hk).2 ⟨rfl, bne_iff_ne.1 hb, rfl⟩)

/-- Settles O1: the two bytes of a selector are read back as it, and the chain answers at each instruction's own selector with
that instruction, its operand not being the first sync byte. -/
theorem decodeOfEncodedBytesIsTheInstruction : Obligations.DecodeOfEncodedBytesIsTheInstruction := by
  unfold Obligations.DecodeOfEncodedBytesIsTheInstruction
  intro i hwf
  cases i with
  | resync => exact decodeBytes_encode_of_selectorSB (st := .idle) rfl (chainOp_of_sync1 ..)
  | sync2 => exact decodeBytes_encode_of_selectorSB (st := .sawSync1) rfl (chainOp_of_sync2 (by decide))
  | ignoreIdle => exact decodeBytes_encode_of_selectorSB (st := .idle) (b := 0) rfl rfl
  | ignoreSync1 => exact decodeBytes_encode_of_selectorSB (st := .sawSync1) (b := 0) rfl rfl
  | cls b => exact decodeBytes_encode_rowOp_instr (k := .sawSync2) rfl hwf
  | ident b => exact decodeBytes_encode_rowOp_instr (k := .haveClass) rfl hwf
  | lenlo b => exact decodeBytes_encode_rowOp_instr (k := .haveId) rfl hwf
  | lenhi b => exact decodeBytes_encode_rowOp_instr (k := .haveLengthLow) rfl hwf
  | payload b => exact decodeBytes_encode_rowOp_instr (k := .haveLengthHigh) rfl hwf
  | cka b => exact decodeBytes_encode_rowOp_instr (k := .havePayload) rfl hwf
  | ckb b => exact decodeBytes_encode_rowOp_instr (k := .haveChecksumA) rfl hwf
  | decPosition => exact decodeBytes_encode_kindInstr _ .position
  | decDop => exact decodeBytes_encode_kindInstr _ .dop
  | decVelocity => exact decodeBytes_encode_kindInstr _ .velocity
  | decStatus => exact decodeBytes_encode_kindInstr _ .status
  | decUnhandled => exact decodeBytes_encode_kindInstr _ .unhandled

/-- Settles O7: the decoder evaluated on the eighteen words. -/
theorem sampleSelectorsDecode : Obligations.SampleSelectorsDecode := by
  unfold Obligations.SampleSelectorsDecode
  decide

/-! ## A state register forced to a code that names no state -/

theorem placeSB_st_of_no_state {a : StCode} (h : 9 ≤ a.toNat) (b : Byte) (s : State) : (placeSB a b s).st = .idle := by
  simp [placeSB, SeqState.ofGateCode, SeqState.ofCode_eq_none h]

/-- Settles O4: the code names no state, so the decoder refuses it and the forced register reads as `Idle`, whose row of the
next-state table the step follows. -/
theorem stateCodesAboveEightActAsIdle : Obligations.StateCodesAboveEightActAsIdle := by
  unfold Obligations.StateCodesAboveEightActAsIdle
  intro a b s h
  refine ⟨SeqState.ofCode_eq_none h, ?_, ?_⟩
  · rw [decodeSB, stateField_append, SeqState.ofCode_eq_none h]
  · have hst : (placeSB a b s).st = .idle := placeSB_st_of_no_state h b s
    obtain ⟨t, hexec, -, hcols⟩ := meetsTable_chainOp (s := (placeSB a b s).begin s.inputs) (b := b)
      (fun hne => nomatch hst.symm.trans hne) rfl
    refine ⟨t, (step_of_byte (e := Edge.ofByte b) rfl rfl rfl).trans hexec, hcols.st.trans ?_⟩
    rw [tableNext, State.begin_st, hst]

end Machine

end Sys2Proof
end

section
/-! Reset (10_state.md R45 to R47, 70_reset_and_hazards.md R260) and the steps without a byte: the draw a reset leaves, that every
value is some draw's, the idle edge, and the read port. -/

namespace Sys2Proof.Machine

/-! ## The cells of a draw -/

theorem Memory.ofCells_append_singleton (cap : Nat) (cells : List Host.Cell) (c : Host.Cell) :
    Memory.ofCells cap (cells ++ [c]) =
      if c.1 < cap then Memory.store (Memory.ofCells cap cells) c.1 c.2 else Memory.ofCells cap cells := by
  simp [Memory.ofCells, List.foldl_append]

/-- What a list of cells names at an index: the last of its values there, the base value where it has none. -/
def lastNamed (cells : List Host.Cell) (a : Nat) : Byte :=
  match cells.reverse.find? (fun c => c.1 == a) with
  | some c => c.2
  | none => Memory.unlisted a

theorem lastNamed_append_singleton (cells : List Host.Cell) (c : Host.Cell) (a : Nat) :
    lastNamed (cells ++ [c]) a = if a = c.1 then c.2 else lastNamed cells a := by
  rw [lastNamed, List.reverse_append, List.reverse_singleton, List.singleton_append, List.find?_cons]
  by_cases h : a = c.1
  · simp [h]
  · rw [if_neg h, beq_false_of_ne (Ne.symm h)]
    rfl

/-- Below the capacity, a buffer made of cells holds what they name. -/
theorem Memory.cell_ofCells {cap a : Nat} (ha : a < cap) (cells : List Host.Cell) :
    Memory.cell (Memory.ofCells cap cells) a = lastNamed cells a := by
  induction cells using List.reverseRecOn with
  | nil => rfl
  | append_singleton cells c ih =>
    rw [lastNamed_append_singleton, ← ih, Memory.ofCells_append_singleton]
    by_cases hc : c.1 < cap
    · rw [if_pos hc, Memory.cell_store]
    · rw [if_neg hc, if_neg]
      omega

/-! ## A buffer as the draw of its own cells -/

theorem Memory.cell_of_not_listed {m : Memory} {a : Nat} (h : ∀ c ∈ m, c.1 ≠ a) :
    Memory.cell m a = Memory.unlisted a := by
  induction m with
  | nil => rfl
  | cons p m ih =>
    obtain ⟨hp, hm⟩ := List.forall_mem_cons.1 h
    rw [Memory.cell_cons, if_neg hp, ih hm]

theorem Memory.cell_of_listed {m : Memory} (h : m.Pairwise fun p q => p.1 < q.1) {c : Host.Cell} (hc : c ∈ m) :
    Memory.cell m c.1 = c.2 := by
  induction m with
  | nil => cases hc
  | cons p m ih =>
    obtain ⟨hp, hm⟩ := List.pairwise_cons.1 h
    rcases List.mem_cons.1 hc with rfl | hc
    · exact if_pos rfl
    · rw [Memory.cell_cons, if_neg (Nat.ne_of_lt (hp c hc)), ih hm hc]

/-- A canonical buffer names each of its cells once. -/
theorem lastNamed_eq_cell {m : Memory} (h : Memory.wf m) (a : Nat) : lastNamed m a = Memory.cell m a := by
  unfold lastNamed
  split
  next c hfind =>
    have hmem : c ∈ m := List.mem_reverse.1 (List.mem_of_find?_eq_some hfind)
    have hat : c.1 = a := by simpa using List.find?_some hfind
    rw [← Memory.cell_of_listed h.1 hmem, hat]
  next hfind =>
    refine (Memory.cell_of_not_listed fun c hc => ?_).symm
    simpa using List.find?_eq_none.1 hfind c (List.mem_reverse.2 hc)

theorem Memory.ofCells_self {cap : Nat} {m : Memory} (h : Memory.wf m) (hin : Memory.inBounds cap m) :
    Memory.ofCells cap m = m := by
  obtain ⟨hwf, hbounds⟩ := Memory.ofCells_wf cap m
  refine Memory.ext_cells hwf h fun a => ?_
  by_cases ha : a < cap
  · rw [Memory.cell_ofCells ha, lastNamed_eq_cell h]
  · have hbeyond {m : Memory} (hm : Memory.inBounds cap m) : Memory.cell m a = Memory.unlisted a :=
      Memory.cell_of_not_listed fun c hc heq => ha (heq ▸ hm c hc)
    rw [hbeyond hbounds, hbeyond hin]

/-! ## Reset -/

/-- Settles O11: the draw of the given values, with the buffer's own cells. -/
theorem anyValuesCanFollowAReset : Obligations.AnyValuesCanFollowAReset := by
  unfold Obligations.AnyValuesCanFollowAReset
  intro cls id ckA ckB len cnt m hwf hin
  exact ⟨⟨cls, id, len, cnt, ckA, ckB, m⟩, fun _ => ⟨rfl, rfl, rfl, rfl, rfl, rfl, Memory.ofCells_self hwf hin⟩⟩

/-- Settles O12: `State.reset` is the reset of the zero draw, field by field. -/
theorem resetStateIsIdleWithTheZeroDraw : Obligations.ResetStateIsIdleWithTheZeroDraw := by
  unfold Obligations.ResetStateIsIdleWithTheZeroDraw
  exact ⟨rfl, rfl, rfl, rfl, rfl⟩

/-- A step at a reset edge. -/
theorem step_of_reset {s : State} {e : Edge} {rest : List Edge} (hin : s.inputs = e :: rest) (hrst : e.rst = true) :
    step s = .next (State.resetWith Config.hardware e.draw rest) := by
  rw [step, stepWith, hin]
  simp [clockEdge, hrst]

/-- Settles O10: the step is the reset of the edge's draw, and each cell of the buffer made from the draw holds the last value
named for it. -/
theorem resetEdgeLeavesIdleAndTheDraw : Obligations.ResetEdgeLeavesIdleAndTheDraw := by
  unfold Obligations.ResetEdgeLeavesIdleAndTheDraw
  intro s e rest hin hrst
  exact ⟨_, step_of_reset hin hrst, rfl, rfl, rfl, rfl, rfl, rfl, rfl, rfl, rfl, rfl, rfl,
    fun a ha => Memory.cell_ofCells ha e.draw.cells⟩

/-- The length bounds speak of the last three states of a frame alone. -/
theorem lengthInv_of_rank_lt_six (c : Config) {s : State} (h : SeqState.rank s.st < 6) : LengthInv c s := by
  constructor
  · intro hst
    rw [hst] at h
    exact absurd h (by decide)
  · rintro (hst | hst) <;> rw [hst] at h <;> exact absurd h (by decide)

/-- Outside a frame the invariant is the canonical form of the buffer: its other clauses speak of a frame in progress. -/
theorem inv_of_not_inFrame {s : State} (hst : SeqState.inFrame s.st = false) (hwf : Memory.wf s.buf)
    (hin : Memory.inBounds 1000 s.buf) : Inv s := by
  have hcases : s.st = .idle ∨ s.st = .sawSync1 := by
    by_contra hne
    rw [(inFrame_iff s.st).2 hne] at hst
    cases hst
  rcases hcases with h | h <;>
    exact ⟨hwf, hin, by simp [h], lengthInv_of_rank_lt_six _ (by simp [h]), by simp [hst], by simp [covered, h], by simp [h]⟩

/-- Settles O45: a reset leaves `Idle` and a canonical buffer, whatever its draw; `State.reset` is one. -/
theorem everyResetHasTheInvariant : Obligations.EveryResetHasTheInvariant := by
  unfold Obligations.EveryResetHasTheInvariant
  have hreset (d : Draw) (rest : List Edge) : Inv (State.resetWith Config.hardware d rest) :=
    inv_of_not_inFrame rfl (Memory.ofCells_wf ..).1 (Memory.ofCells_wf ..).2
  exact ⟨hreset, hreset Draw.zero []⟩

/-! ## The steps without a byte -/

theorem step_of_idle_edge {s : State} {e : Edge} {rest : List Edge} (hin : s.inputs = e :: rest) (hrst : e.rst = false)
    (hvalid : e.inValid = false) : step s = .next (s.begin rest) := by
  rw [step, stepWith, hin]
  simp [clockEdge, hrst, hvalid]

theorem step_of_no_edge {s : State} (hin : s.inputs = []) : step s = .next (s.begin []) := by
  rw [step, stepWith, hin]
  rfl

/-- Settles O9: either step is the start of a step and no more. -/
theorem stepWithoutAByteChangesNothing : Obligations.StepWithoutAByteChangesNothing := by
  unfold Obligations.StepWithoutAByteChangesNothing
  refine ⟨fun s e rest hin hrst hvalid => ?_, fun s hin => ?_⟩
  · exact ⟨_, step_of_idle_edge hin hrst hvalid, rfl, ⟨rfl, rfl, rfl, rfl, rfl, rfl⟩, fun _ => rfl, rfl, rfl, rfl, rfl⟩
  · exact ⟨_, step_of_no_edge hin, rfl, ⟨rfl, rfl, rfl, rfl, rfl, rfl⟩, fun _ => rfl, rfl, rfl, rfl, rfl⟩

/-! ## The read port -/

/-- Settles O59: the port answers the read of the cell where it exists, and 0 where it does not. -/
theorem readPortReadsTheBuffer : Obligations.ReadPortReadsTheBuffer := by
  unfold Obligations.ReadPortReadsTheBuffer
  refine fun c s i => ⟨fun hlt => ?_, fun hle => ?_⟩
  · rw [readPort, bufRead, if_pos hlt, Option.getD_some]
  · rw [readPort, bufRead, if_neg (Nat.not_lt_of_le hle), Option.getD_none]

end Sys2Proof.Machine
end

section
/-! The checksum of a byte sequence (43_checksum.md R172, R176): its closed form, and how far it depends on the order and on one
byte. -/

namespace Sys2Proof.Machine

/-- The weighted sum of R172: byte `i` of `n` counts `n - i` times. -/
def weightedSum (bs : List Byte) : Nat := (bs.mapIdx fun i d => (bs.length - i) * d.toNat).sum

@[simp] theorem weightedSum_nil : weightedSum [] = 0 := rfl

theorem weightedSum_cons (b : Byte) (bs : List Byte) :
    weightedSum (b :: bs) = (bs.length + 1) * b.toNat + weightedSum bs := by
  simp [weightedSum, List.mapIdx_cons]

/-- The first accumulator adds up the bytes. -/
theorem foldl_ckStep_fst_toNat (bs : List Byte) (p : Byte × Byte) :
    (bs.foldl ckStep p).1.toNat = (p.1.toNat + (bs.map BitVec.toNat).sum) % 256 := by
  induction bs generalizing p with
  | nil => exact (Nat.mod_eq_of_lt p.1.isLt).symm
  | cons b bs ih =>
    rw [List.foldl_cons, ih, ckStep_fst, List.map_cons, List.sum_cons, BitVec.toNat_add]
    omega

/-- The second accumulator adds up the first ones, each byte once for itself and once for every byte after it. -/
theorem foldl_ckStep_snd_toNat (bs : List Byte) (p : Byte × Byte) :
    (bs.foldl ckStep p).2.toNat = (p.2.toNat + bs.length * p.1.toNat + weightedSum bs) % 256 := by
  induction bs generalizing p with
  | nil => simpa using (Nat.mod_eq_of_lt p.2.isLt).symm
  | cons b bs ih =>
    have hfirst : (p.1 + b).toNat ≡ p.1.toNat + b.toNat [MOD 256] := by
      rw [BitVec.toNat_add]
      exact Nat.mod_modEq ..
    have hsecond : (p.2 + (p.1 + b)).toNat ≡ p.2.toNat + (p.1.toNat + b.toNat) [MOD 256] := by
      rw [BitVec.toNat_add]
      exact (Nat.mod_modEq ..).trans (hfirst.add_left _)
    rw [List.foldl_cons, ih, ckStep_fst, ckStep_snd, weightedSum_cons]
    refine ((hsecond.add (hfirst.mul_left _)).add_right _).trans (congrArg (· % 256) ?_)
    rw [List.length_cons]
    ring

theorem ckSum_fst_toNat (bs : List Byte) : (ckSum bs).1.toNat = (bs.map BitVec.toNat).sum % 256 := by
  rw [ckSum, foldl_ckStep_fst_toNat]
  simp

theorem ckSum_snd_toNat (bs : List Byte) : (ckSum bs).2.toNat = weightedSum bs % 256 := by
  rw [ckSum, foldl_ckStep_snd_toNat]
  simp

/-- Settles O37: by induction on the bytes, from any pair of accumulators. -/
theorem checksumHasItsClosedForm : Obligations.ChecksumHasItsClosedForm := by
  unfold Obligations.ChecksumHasItsClosedForm
  exact fun bs => ⟨ckSum_fst_toNat bs, ckSum_snd_toNat bs⟩

theorem ckSum_append (bs cs : List Byte) : ckSum (bs ++ cs) = cs.foldl ckStep (ckSum bs) := List.foldl_append

/-- Equal first accumulators and different second ones stay so over any bytes. -/
theorem foldl_ckStep_snd_ne {p q : Byte × Byte} (hfst : p.1 = q.1) (hsnd : p.2 ≠ q.2) (cs : List Byte) :
    (cs.foldl ckStep p).2 ≠ (cs.foldl ckStep q).2 := by
  induction cs generalizing p q with
  | nil => exact hsnd
  | cons b cs ih =>
    refine ih (congrArg (· + b) hfst) fun h => hsnd ?_
    rw [ckStep_snd, ckStep_snd, hfst] at h
    exact add_right_cancel h

/-- Two different bytes leave the same first accumulator in either order, and different second ones. -/
theorem ckStep_swap (p : Byte × Byte) {x y : Byte} (h : x ≠ y) :
    (ckStep (ckStep p x) y).1 = (ckStep (ckStep p y) x).1 ∧ (ckStep (ckStep p x) y).2 ≠ (ckStep (ckStep p y) x).2 := by
  have hfst : p.1 + x + y = p.1 + y + x := add_right_comm ..
  refine ⟨hfst, fun hsnd => h ?_⟩
  simp only [ckStep_fst, ckStep_snd, hfst] at hsnd
  exact add_left_cancel (add_left_cancel (add_right_cancel hsnd))

/-- Settles O38: the first sum is a sum of the bytes, and an exchange of neighbours makes a difference in the second that no
later byte takes back. -/
theorem onlyTheSecondSumDependsOnTheOrder : Obligations.OnlyTheSecondSumDependsOnTheOrder := by
  unfold Obligations.OnlyTheSecondSumDependsOnTheOrder
  refine ⟨fun bs cs hperm => BitVec.eq_of_toNat_eq ?_, fun bs x y cs hne => ?_⟩
  · rw [ckSum_fst_toNat, ckSum_fst_toNat, (hperm.map BitVec.toNat).sum_eq]
  · obtain ⟨hfst, hsnd⟩ := ckStep_swap (ckSum bs) hne
    rw [ckSum_append, ckSum_append]
    exact foldl_ckStep_snd_ne hfst hsnd cs

/-- One byte replaced by another changes the first sum. -/
theorem ckSum_fst_ne_of_ne (bs cs : List Byte) {x y : Byte} (h : x ≠ y) :
    (ckSum (bs ++ x :: cs)).1 ≠ (ckSum (bs ++ y :: cs)).1 := by
  intro heq
  have hnum := congrArg BitVec.toNat heq
  simp only [ckSum_fst_toNat, List.map_append, List.map_cons, List.sum_append, List.sum_cons] at hnum
  refine h (BitVec.eq_of_toNat_eq ?_)
  have hx := x.isLt
  have hy := y.isLt
  omega

/-- Settles O39: two bytes that are equal modulo 256 are equal. -/
theorem oneCorruptedByteAltersTheFirstSum : Obligations.OneCorruptedByteAltersTheFirstSum := by
  unfold Obligations.OneCorruptedByteAltersTheFirstSum
  exact fun bs cs _ _ h => ckSum_fst_ne_of_ne bs cs h

end Sys2Proof.Machine
end

section
/-! Reads of several cells (44_unpack_dispatch.md R190 to R195, R198, R201): the little-endian sum as digits, signed fields, the
field bus against the schema table, and the cells a kind's fields depend on. -/

namespace Sys2Proof.Machine

/-! ## The little-endian sum -/

theorem leSum_lt (m : Memory) (o n : Nat) : leSum m o n < 256 ^ n := by
  induction n with
  | zero => exact Nat.one_pos
  | succ n ih =>
    have hdigit : (Memory.cell m (o + n)).toNat + 1 ≤ 256 := (Memory.cell m (o + n)).isLt
    calc leSum m o n + (Memory.cell m (o + n)).toNat * 256 ^ n
        < ((Memory.cell m (o + n)).toNat + 1) * 256 ^ n := by rw [Nat.succ_mul]; omega
      _ ≤ 256 * 256 ^ n := Nat.mul_le_mul_right _ hdigit
      _ = 256 ^ (n + 1) := (Nat.pow_succ' ..).symm

/-- The sum is made of its cells as digits: equal cells give equal sums, and equal sums have equal cells. -/
theorem leSum_eq_iff {m m' : Memory} {o n : Nat} :
    leSum m o n = leSum m' o n ↔ ∀ k, k < n → Memory.cell m (o + k) = Memory.cell m' (o + k) := by
  induction n with
  | zero => simp [leSum]
  | succ n ih =>
    have hdigits : leSum m o (n + 1) = leSum m' o (n + 1) ↔
        leSum m o n = leSum m' o n ∧ Memory.cell m (o + n) = Memory.cell m' (o + n) := by
      rw [leSum, leSum, ← BitVec.toNat_inj]
      constructor
      · intro h
        have hlow := congrArg (· % 256 ^ n) h
        simp only [Nat.add_mul_mod_self_right, Nat.mod_eq_of_lt (leSum_lt ..)] at hlow
        rw [hlow] at h
        exact ⟨hlow, Nat.eq_of_mul_eq_mul_right (Nat.pow_pos (by decide)) (Nat.add_left_cancel h)⟩
      · rintro ⟨hlow, hhigh⟩
        rw [hlow, hhigh]
    rw [hdigits, ih, Nat.forall_lt_succ_right]

/-- Shifting a value up by a byte and putting a byte below it. -/
theorem shiftLeft_or_byte (v : Nat) (b : Byte) : v <<< 8 ||| b.toNat = v * 256 + b.toNat := by
  rw [← Nat.shiftLeft_add_eq_or_of_lt b.isLt, Nat.shiftLeft_eq]

theorem accumulate_eq (m : Memory) (o w v : Nat) : accumulate m o w v = v * 256 ^ w + leSum m o w := by
  induction w generalizing v with
  | zero => simp [accumulate, leSum]
  | succ w ih =>
    rw [accumulate, ih, shiftLeft_or_byte, leSum]
    ring

/-- Settles O32: by induction on the width, from any value the loop begins at. -/
theorem accumulationFromTheTopEqualsTheSum : Obligations.AccumulationFromTheTopEqualsTheSum := by
  unfold Obligations.AccumulationFromTheTopEqualsTheSum
  intro m o w
  rw [accumulate_eq, Nat.zero_mul, Nat.zero_add]

/-! ## Signed fields -/

/-- Two's complement of the machine's words is `signed_N` (00_scope.md R9). -/
theorem toInt_eq_signedN {n : Nat} (x : BitVec (n + 1)) : x.toInt = signedN (n + 1) x.toNat := by
  rw [BitVec.toInt_eq_toNat_cond, signedN, Nat.add_sub_cancel]
  have hpow : 2 ^ (n + 1) = 2 * 2 ^ n := Nat.pow_succ'
  exact if_congr (by omega) rfl (by norm_cast)

theorem fieldI32_eq_signedN_leSum (m : Memory) (o : Nat) : fieldI32 m o = signedN 32 (leSum m o 4) := by
  rw [fieldI32, toInt_eq_signedN, le32_toNat_eq_leSum]

theorem ofInt_fieldI32 (m : Memory) (o : Nat) : BitVec.ofInt 32 (fieldI32 m o) = fieldU32 m o := BitVec.ofInt_toInt

/-- Settles O33: a signed field is the two's complement reading of the same word. -/
theorem signedFieldIsTwosComplement : Obligations.SignedFieldIsTwosComplement := by
  unfold Obligations.SignedFieldIsTwosComplement
  intro m o
  have hlow : -2147483648 ≤ (le32 m o).toInt := BitVec.le_toInt (le32 m o)
  have hhigh : (le32 m o).toInt < 2147483648 := BitVec.toInt_lt (x := le32 m o)
  exact ⟨toInt_eq_signedN _, hlow, Int.lt_add_one_iff.1 hhigh, ofInt_fieldI32 m o, toInt_eq_signedN _⟩

/-- Settles O25: id `02` is the one of kind POSITION, and each field is the read at its offset, unsigned or in two's
complement. -/
theorem decPositionReadsItsFields : Obligations.DecPositionReadsItsFields := by
  unfold Obligations.DecPositionReadsItsFields
  refine ⟨fun _ => decodeID_eq_ok_iff (k := .position), fun s => ?_⟩
  exact ⟨_, positionFields s.buf, exec_kindInstr .position s, rfl, fieldU32_toNat .., fieldI32_eq_signedN_leSum ..,
    fieldI32_eq_signedN_leSum .., fieldI32_eq_signedN_leSum .., fieldI32_eq_signedN_leSum .., fieldU32_toNat ..,
    fieldU32_toNat .., rfl, ⟨rfl, rfl, rfl, rfl, rfl, rfl⟩, fun _ => rfl, rfl, rfl, rfl⟩

/-- Settles O27: id `12` is the one of kind VELOCITY, and each field is the read at its offset, unsigned or in two's
complement. -/
theorem decVelocityReadsItsFields : Obligations.DecVelocityReadsItsFields := by
  unfold Obligations.DecVelocityReadsItsFields
  refine ⟨fun _ => decodeID_eq_ok_iff (k := .velocity), fun s => ?_⟩
  exact ⟨_, velocityFields s.buf, exec_kindInstr .velocity s, rfl, fieldU32_toNat .., fieldI32_eq_signedN_leSum ..,
    fieldI32_eq_signedN_leSum .., fieldI32_eq_signedN_leSum .., fieldU32_toNat .., fieldU32_toNat ..,
    fieldI32_eq_signedN_leSum .., fieldU32_toNat .., fieldU32_toNat .., rfl, ⟨rfl, rfl, rfl, rfl, rfl, rfl⟩,
    fun _ => rfl, rfl, rfl, rfl⟩

/-! ## The pseudo-instructions of 30_encoding.md R100 -/

theorem fieldU16_of_bytes {m : Memory} {o : Nat} {v : Half}
    (h : ∀ k, k < 2 → (u16Bytes v)[k]? = some (Memory.cell m (o + k))) : fieldU16 m o = v := by
  have h0 : v.extractLsb' 0 8 = Memory.cell m o := Option.some.inj (h 0 (by decide))
  have h1 : v.extractLsb' 8 8 = Memory.cell m (o + 1) := Option.some.inj (h 1 (by decide))
  refine BitVec.eq_of_toNat_eq ((le16_toNat m o).trans ?_)
  simp only [← h0, ← h1, BitVec.extractLsb'_toNat, Nat.shiftRight_eq_div_pow]
  have hv := v.isLt
  omega

theorem fieldU32_of_bytes {m : Memory} {o : Nat} {v : Word}
    (h : ∀ k, k < 4 → (u32Bytes v)[k]? = some (Memory.cell m (o + k))) : fieldU32 m o = v := by
  have h0 : v.extractLsb' 0 8 = Memory.cell m o := Option.some.inj (h 0 (by decide))
  have h1 : v.extractLsb' 8 8 = Memory.cell m (o + 1) := Option.some.inj (h 1 (by decide))
  have h2 : v.extractLsb' 16 8 = Memory.cell m (o + 2) := Option.some.inj (h 2 (by decide))
  have h3 : v.extractLsb' 24 8 = Memory.cell m (o + 3) := Option.some.inj (h 3 (by decide))
  refine BitVec.eq_of_toNat_eq ((le32_toNat m o).trans ?_)
  simp only [← h0, ← h1, ← h2, ← h3, BitVec.extractLsb'_toNat, Nat.shiftRight_eq_div_pow]
  have hv := v.isLt
  omega

/-- Settles O60: the bytes of a value are its base-256 digits, and a value in the signed range is the two's complement reading
of its pattern. -/
theorem fieldReadsBackItsPseudoInstruction : Obligations.FieldReadsBackItsPseudoInstruction := by
  unfold Obligations.FieldReadsBackItsPseudoInstruction
  refine fun m o => ⟨fun v => fieldU16_of_bytes, fun v => fieldU32_of_bytes, fun v hlow hhigh h => ?_⟩
  have hword : le32 m o = BitVec.ofInt 32 v := fieldU32_of_bytes h
  rw [fieldI32, hword, BitVec.toInt_ofInt]
  exact Int.bmod_eq_of_le hlow (Int.lt_add_one_iff.2 hhigh)

/-! ## The field bus (44_unpack_dispatch.md R201) -/

/-- What a row of the schema table reads, as a word of the bus. -/
def rowWord (m : Memory) (f : FieldSpec) : Word := BitVec.ofNat 32 (leSum m f.offset f.ty.width)

theorem fieldU32_eq_ofNat (m : Memory) (o : Nat) : fieldU32 m o = BitVec.ofNat 32 (leSum m o 4) := by
  rw [← fieldU32_toNat, BitVec.ofNat_toNat, BitVec.setWidth_eq]

theorem zeroExtend_fieldU16 (m : Memory) (o : Nat) :
    (fieldU16 m o).zeroExtend 32 = BitVec.ofNat 32 (leSum m o 2) := by
  rw [← fieldU16_toNat, BitVec.ofNat_toNat]

/-- The bus is the words of the kind's rows, and zeros after them. -/
theorem bus_toList (k : Kind) (m : Memory) :
    (fieldsOf k m).bus.toList =
      (Config.schema k).map (rowWord m) ++ List.replicate (9 - (Config.schema k).length) 0 := by
  cases k <;> simp [fieldsOf, positionFields, dopFields, velocityFields, statusFields, Fields.bus, Config.schema, rowWord,
    FieldType.width, ofInt_fieldI32, fieldU32_eq_ofNat, zeroExtend_fieldU16, List.replicate]

theorem bus_getElem? (k : Kind) (m : Memory) (j : Fin Config.hardware.nslot) :
    some (fieldsOf k m).bus[j] =
      ((Config.schema k).map (rowWord m) ++ List.replicate (9 - (Config.schema k).length) 0)[j.val]? := by
  rw [← bus_toList]
  simp

/-- Settles O34: a slot below the number of the kind's rows is its row's word, and the slots after them are the zeros. -/
theorem fieldBusFollowsTheSchemaTable : Obligations.FieldBusFollowsTheSchemaTable := by
  unfold Obligations.FieldBusFollowsTheSchemaTable
  intro k m j
  refine Option.some.inj ((bus_getElem? k m j).trans ?_)
  cases hrow : (Config.schema k)[j.val]? with
  | some f =>
    have hlt : j.val < ((Config.schema k).map (rowWord m)).length := by
      simpa using (List.getElem?_eq_some_iff.1 hrow).1
    rw [List.getElem?_append_left hlt, List.getElem?_map, hrow]
    rfl
  | none =>
    have hle : (Config.schema k).length ≤ j.val := List.getElem?_eq_none_iff.1 hrow
    have hj : j.val < 9 := j.isLt
    rw [List.getElem?_append_right (by simpa using hle), List.length_map, List.getElem?_replicate, if_pos (by omega)]

/-! ## The cells a kind's fields depend on (44_unpack_dispatch.md R198, R203) -/

theorem fieldU16_eq_ofNat (m : Memory) (o : Nat) : fieldU16 m o = BitVec.ofNat 16 (leSum m o 2) := by
  rw [← fieldU16_toNat, BitVec.ofNat_toNat, BitVec.setWidth_eq]

theorem width_le_four (ty : FieldType) : ty.width ≤ 4 := by
  cases ty <;> decide

/-- A row's word holds the whole of its sum. -/
theorem leSum_eq_of_rowWord_eq {m m' : Memory} {f : FieldSpec} (h : rowWord m f = rowWord m' f) :
    leSum m f.offset f.ty.width = leSum m' f.offset f.ty.width := by
  have hfits (m : Memory) : leSum m f.offset f.ty.width < 2 ^ 32 :=
    (leSum_lt ..).trans_le (Nat.pow_le_pow_right (by decide) (width_le_four f.ty) : 256 ^ f.ty.width ≤ 256 ^ 4)
  have hnum := congrArg BitVec.toNat h
  rwa [rowWord, rowWord, BitVec.toNat_ofNat, BitVec.toNat_ofNat, Nat.mod_eq_of_lt (hfits m), Nat.mod_eq_of_lt (hfits m')]
    at hnum

/-- Two buffers give a kind the same fields exactly when each row of its table reads the same sum from both. -/
theorem fieldsOf_eq_iff {k : Kind} {m m' : Memory} :
    fieldsOf k m = fieldsOf k m' ↔
      ∀ f ∈ Config.schema k, leSum m f.offset f.ty.width = leSum m' f.offset f.ty.width := by
  constructor
  · intro h f hf
    have hbus := congrArg (fun x : Fields => x.bus.toList) h
    simp only [bus_toList, List.append_cancel_right_eq] at hbus
    exact leSum_eq_of_rowWord_eq (List.map_inj_left.1 hbus f hf)
  · intro h
    cases k <;> simp_all [Config.schema, FieldType.width, fieldsOf, positionFields, dopFields, velocityFields, statusFields,
      fieldU16_eq_ofNat, fieldU32_eq_ofNat, fieldI32_eq_signedN_leSum]

/-- Every row lies within the first `need` cells. -/
theorem row_le_need (k : Kind) : ∀ f ∈ Config.schema k, f.offset + f.ty.width ≤ Config.need k := by
  cases k <;> decide

/-- Every one of the first `need` cells lies in a row. -/
theorem exists_row_of_lt_need (k : Kind) :
    ∀ a, a < Config.need k → ∃ f ∈ Config.schema k, f.offset ≤ a ∧ a < f.offset + f.ty.width := by
  cases k <;> decide

/-- The fields of a kind depend on the first `need` cells alone. -/
theorem fieldsOf_congr {k : Kind} {m m' : Memory} (h : ∀ a, a < Config.need k → Memory.cell m a = Memory.cell m' a) :
    fieldsOf k m = fieldsOf k m' := by
  refine fieldsOf_eq_iff.2 fun f hf => leSum_eq_iff.2 fun i hi => h _ ?_
  have hfit := row_le_need k f hf
  omega

/-- Settles O35: the rows cover the first `need` cells and no other, and a row's sum holds each of its cells as a digit. -/
theorem fieldsReadExactlyTheNeededCells : Obligations.FieldsReadExactlyTheNeededCells := by
  unfold Obligations.FieldsReadExactlyTheNeededCells
  refine ⟨rfl, rfl, rfl, rfl, rfl, fun k m m' => fieldsOf_congr, fun k m a b ha hb heq => hb ?_⟩
  obtain ⟨f, hf, hlow, hhigh⟩ := exists_row_of_lt_need k a ha
  have hcell := leSum_eq_iff.1 (fieldsOf_eq_iff.1 heq f hf) (a - f.offset) (by omega)
  rwa [Nat.add_sub_cancel' hlow, Memory.cell_store_same] at hcell

end Sys2Proof.Machine
end

section
/-! The step with a byte, from every state: when it answers, what the operation it performs may write, and the event and the
movement of the sequencer (40_sync.md R115, 60_exceptions.md R220). -/

namespace Sys2Proof.Machine

/-! ## When the step answers, and the table's columns of the answer -/

section Columns

variable {s t : State} {b : Byte}

/-- The row of the table holds of a step from every state but at the write that does not exist. -/
theorem meetsTable_of_cnt_lt (hcnt : s.st = .haveLengthHigh → b ≠ 0xB5 → s.cnt.toNat < 1000) (hout : s.out = .none) :
    MeetsTable (chainOp Config.hardware s.st b) s b := by
  by_cases hb : b = 0xB5
  · subst hb
    rw [show chainOp Config.hardware s.st 0xB5 = .resync from chainOp_of_sync1 Config.hardware s.st]
    exact meetsTable_resync hout
  · exact meetsTable_chainOp (fun hst => hcnt hst hb) hout

/-- A payload byte is taken only where its cell exists. -/
theorem cnt_lt_of_exec_chainOp (h : exec (chainOp Config.hardware s.st b) s = .next t) (hst : s.st = .haveLengthHigh)
    (hb : b ≠ 0xB5) : s.cnt.toNat < 1000 := by
  rw [(chainOp_eq_rowOp_instr (k := .haveLengthHigh) rfl).2 ⟨hst, hb, rfl⟩] at h
  exact (payload_cases h).1

/-- What the operation answers meets the table. -/
theorem columns_of_exec_chainOp (h : exec (chainOp Config.hardware s.st b) s = .next t) (hout : s.out = .none) :
    t.inputs = s.inputs ∧ TableColumns s b t := by
  obtain ⟨u, hu, hinputs, hcols⟩ := meetsTable_of_cnt_lt (cnt_lt_of_exec_chainOp h) hout
  cases hu.symm.trans h
  exact ⟨hinputs, hcols⟩

/-- The start of a step changes nothing that the table speaks of. -/
theorem TableColumns.of_begin {rest : List Edge} (h : TableColumns (s.begin rest) b t) : TableColumns s b t :=
  ⟨h.st, h.cls, h.id, h.len, h.cnt, h.sums, h.cells, h.output⟩

end Columns

section ByteStep

variable {s t : State} {e : Edge} {rest : List Edge}

/-- A step with a byte meets the table, whatever state it is taken from. -/
theorem columns_of_step (hin : s.inputs = e :: rest) (hrst : e.rst = false) (hvalid : e.inValid = true)
    (h : step s = .next t) : t.inputs = rest ∧ TableColumns s e.inByte t := by
  rw [step_of_byte hin hrst hvalid] at h
  obtain ⟨hinputs, hcols⟩ := columns_of_exec_chainOp (s := s.begin rest) h rfl
  exact ⟨hinputs, hcols.of_begin⟩

/-- A step with a byte answers, but at the write that does not exist. -/
theorem exists_step_of_cnt_lt {b : Byte} (hin : s.inputs = Edge.ofByte b :: rest)
    (hcnt : s.st = .haveLengthHigh → b ≠ 0xB5 → s.cnt.toNat < 1000) :
    ∃ t, step s = .next t ∧ t.inputs = rest ∧ TableColumns s b t := by
  obtain ⟨t, hexec, hinputs, hcols⟩ := meetsTable_of_cnt_lt (s := s.begin rest) hcnt rfl
  exact ⟨t, (step_of_byte hin rfl rfl).trans hexec, hinputs, hcols.of_begin⟩

end ByteStep

/-! ## The outcomes of PAYLOAD, LENHI and CKB -/

/-- Settles O21: the buffer has no cell to write. -/
theorem payloadStopsOutsideTheBuffer : Obligations.PayloadStopsOutsideTheBuffer := by
  unfold Obligations.PayloadStopsOutsideTheBuffer
  intro b s h
  have hnone : bufWrite Config.hardware s.buf (payloadIndex s) b = none := bufWrite_eq_none.2 h
  rw [exec_payload, payload, hnone]
  rfl

/-- Settles O19: LENHI is the operation of `HaveLengthLow`'s row; its register writes are the same on the three outcomes, whose
conditions are those of the new length. -/
theorem lenhiSplitsThreeWays : Obligations.LenhiSplitsThreeWays := by
  unfold Obligations.LenhiSplitsThreeWays
  refine ⟨decodeSB_eq_rowOp_instr (k := .haveLengthLow) rfl, fun b s => ⟨_, exec_lenhi b s, ?_⟩⟩
  have hzero : lenNext b s.len = 0 ↔ (lenNext b s.len).toNat = 0 := BitVec.toNat_inj.symm
  rcases lenhi_cases Config.hardware b s with ⟨hover, heq⟩ | ⟨-, hlen, heq⟩ | ⟨hfit, hlen, heq⟩ <;> rw [heq] <;>
    refine ⟨lenNext_toNat b s.len, rfl, ckUpdate_ckA_toNat b s, ckUpdate_ckB_toNat b s, rfl, rfl, fun _ => rfl, ⟨rfl, rfl⟩,
      fun h => ?_, fun h => ?_, fun hpos hle => ?_⟩
  · exact ⟨rfl, rfl, rfl⟩
  · exact absurd (h ▸ hover : 1000 < 0) (by decide)
  · exact absurd hover (Nat.not_lt_of_le hle)
  · exact absurd (hzero.1 hlen ▸ h : 1000 < 0) (by decide)
  · exact ⟨rfl, rfl, rfl⟩
  · exact absurd (hzero.1 hlen) hpos.ne'
  · exact absurd h (Nat.not_lt_of_le hfit)
  · exact absurd (hzero.2 h) hlen
  · exact ⟨rfl, rfl, rfl⟩

/-- Settles O30: CKB on a match is the kind decode of `id`'s kind with the record put out, and the record has the fields of that
decode. -/
theorem deliveringCkbRunsTheSelectedKindDecode : Obligations.DeliveringCkbRunsTheSelectedKindDecode := by
  unfold Obligations.DeliveringCkbRunsTheSelectedKindDecode
  refine fun s => ⟨kindInstr (kindOf s.id), kindDecode (kindOf s.id) { s with st := .idle }, ckb Config.hardware s.ckB s,
    frameRecord (recordBytes Config.hardware s.buf s.len.toNat) s, decodeID_eq s.id, exec_kindInstr .., exec_ckb .., ?_, ?_⟩
  · rw [ckb_match, kindDecode_eq]
    rfl
  · rw [kindDecode_eq]
    rfl

/-- Settles O58: a delivery leaves the `id` and the cells its record was made from; and the fields depend on the cells. -/
theorem recordOutputsFollowIdAndBuffer : Obligations.RecordOutputsFollowIdAndBuffer := by
  unfold Obligations.RecordOutputsFollowIdAndBuffer
  refine ⟨fun s t r h hr => ?_, fun s t hid hcells => ?_⟩
  · obtain ⟨e, rest, -, -, -, -, -, -, rfl⟩ := step_frame_cases h hr
    cases hr
    exact ⟨rfl, rfl⟩
  · rw [liveKind, liveFields, hid, fieldsOf_congr fun a _ => (hcells a).symm]
    exact ⟨rfl, rfl⟩

/-! ## What each operation writes (10_state.md R27) -/

/-- LENHI writes `len`, `cnt`, the accumulators, `st`, the output and the label. -/
theorem lenhi_frame (c : Config) (b : Byte) (s : State) :
    (lenhi c b s).cls = s.cls ∧ (lenhi c b s).id = s.id ∧ (lenhi c b s).buf = s.buf ∧ (lenhi c b s).inputs = s.inputs := by
  rcases lenhi_cases c b s with ⟨-, heq⟩ | ⟨-, -, heq⟩ | ⟨-, -, heq⟩ <;> rw [heq] <;> exact ⟨rfl, rfl, rfl, rfl⟩

/-- CKB writes no data register and no cell. -/
theorem ckb_frame (c : Config) (b : Byte) (s : State) :
    SameRegs s (ckb c b s) ∧ (ckb c b s).buf = s.buf ∧ (ckb c b s).inputs = s.inputs := by
  rcases ckb_cases c b s with ⟨-, heq⟩ | ⟨-, heq⟩ <;> rw [heq] <;> exact ⟨⟨rfl, rfl, rfl, rfl, rfl, rfl⟩, rfl, rfl⟩

/-- The buffer is written by PAYLOAD alone, at the old count. -/
theorem exec_buf_cases {i : Instr} {s t : State} (h : exec i s = .next t) :
    t.buf = s.buf ∨ ∃ b, i = .payload b ∧ s.cnt.toNat < 1000 ∧ t.buf = Memory.store s.buf s.cnt.toNat b := by
  cases i with
  | resync =>
    cases (exec_resync s).symm.trans h
    exact .inl rfl
  | sync2 | ignoreIdle | ignoreSync1 | cls | ident | lenlo | decPosition | decDop | decVelocity | decStatus |
    decUnhandled =>
    cases h
    exact .inl rfl
  | lenhi b =>
    cases h
    exact .inl (lenhi_frame ..).2.2.1
  | payload b =>
    obtain ⟨hcnt, rfl⟩ := payload_cases h
    exact .inr ⟨b, rfl, hcnt, rfl⟩
  | cka b =>
    cases (exec_cka b s).symm.trans h
    left
    split <;> rfl
  | ckb b =>
    cases h
    exact .inl (ckb_frame ..).2.1

/-- The columns of 10_state.md R27 for `cls`, `id`, `len` and `cnt`: who may have written each, and the pending edges, which
nobody writes. -/
def WritesItsRegisters (i : Instr) (s t : State) : Prop :=
  (t.cls ≠ s.cls → ∃ b, i = .cls b) ∧ (t.id ≠ s.id → ∃ b, i = .ident b) ∧
  (t.len ≠ s.len → ∃ b, i = .lenlo b ∨ i = .lenhi b) ∧ (t.cnt ≠ s.cnt → ∃ b, i = .lenhi b ∨ i = .payload b) ∧
  t.inputs = s.inputs

theorem writesItsRegisters_of_sameRegs {i : Instr} {s t : State} (h : SameRegs s t) (hinputs : t.inputs = s.inputs) :
    WritesItsRegisters i s t := by
  obtain ⟨hcls, hid, hlen, hcnt, -, -⟩ := h
  exact ⟨(absurd hcls ·), (absurd hid ·), (absurd hlen ·), (absurd hcnt ·), hinputs⟩

theorem exec_writesItsRegisters {i : Instr} {s t : State} (h : exec i s = .next t) : WritesItsRegisters i s t := by
  cases i with
  | resync =>
    cases (exec_resync s).symm.trans h
    exact writesItsRegisters_of_sameRegs ⟨rfl, rfl, rfl, rfl, rfl, rfl⟩ rfl
  | ignoreIdle | ignoreSync1 | decPosition | decDop | decVelocity | decStatus | decUnhandled =>
    cases h
    exact writesItsRegisters_of_sameRegs ⟨rfl, rfl, rfl, rfl, rfl, rfl⟩ rfl
  | sync2 | cls | ident | lenlo =>
    cases h
    simp [WritesItsRegisters]
  | lenhi b =>
    cases h
    obtain ⟨hcls, hid, -, hinputs⟩ := lenhi_frame Config.hardware b s
    exact ⟨(absurd hcls ·), (absurd hid ·), fun _ => ⟨b, .inr rfl⟩, fun _ => ⟨b, .inl rfl⟩, hinputs⟩
  | payload b =>
    obtain ⟨-, rfl⟩ := payload_cases h
    simp [WritesItsRegisters]
  | cka b =>
    cases (exec_cka b s).symm.trans h
    split <;> exact writesItsRegisters_of_sameRegs ⟨rfl, rfl, rfl, rfl, rfl, rfl⟩ rfl
  | ckb b =>
    cases h
    obtain ⟨hregs, -, hinputs⟩ := ckb_frame Config.hardware b s
    exact writesItsRegisters_of_sameRegs hregs hinputs

theorem checksumByte_cases (i : Instr) :
    checksumByte i = none ∨ ∃ b, i = .cls b ∨ i = .ident b ∨ i = .lenlo b ∨ i = .lenhi b ∨ i = .payload b := by
  cases i <;> simp [checksumByte]

/-- The accumulators are written by SYNC2 and by the operations that fold a byte in. -/
theorem exec_writes_sums {i : Instr} {s t : State} (h : exec i s = .next t) (hne : (t.ckA, t.ckB) ≠ (s.ckA, s.ckB)) :
    i = .sync2 ∨ ∃ b, i = .cls b ∨ i = .ident b ∨ i = .lenlo b ∨ i = .lenhi b ∨ i = .payload b := by
  refine or_iff_not_imp_left.2 fun hi => (checksumByte_cases i).resolve_left fun hnone => hne ?_
  obtain ⟨hA, hB⟩ := exec_sameSums_of_none h hnone hi
  rw [hA, hB]

/-- IGNORE and the kind decodes leave the sequencer where it is. -/
theorem exec_writes_st {i : Instr} {s t : State} (h : exec i s = .next t) (hne : t.st ≠ s.st) :
    i ≠ .ignoreIdle ∧ i ≠ .ignoreSync1 ∧ ∀ k, i ≠ kindInstr k := by
  refine ⟨?_, ?_, fun k => ?_⟩ <;> rintro rfl <;> refine hne ?_
  · cases h
    rfl
  · cases h
    rfl
  · cases (exec_kindInstr k s).symm.trans h
    rw [kindDecode_eq]

/-- Settles O40: what each operation may write, register by register, with the cells and the output. -/
theorem onlyTheNamedOperationsWriteEachRegister : Obligations.OnlyTheNamedOperationsWriteEachRegister := by
  unfold Obligations.OnlyTheNamedOperationsWriteEachRegister
  intro i s t h
  obtain ⟨hcls, hid, hlen, hcnt, hinputs⟩ := exec_writesItsRegisters h
  refine ⟨hcls, hid, hlen, hcnt, exec_writes_sums h, fun a ha => ?_, fun hout => ?_, exec_writes_st h, hinputs⟩
  · rcases exec_buf_cases h with hbuf | ⟨b, rfl, -, hbuf⟩ <;> rw [hbuf] at ha
    · exact absurd rfl ha
    · exact ⟨b, rfl, by_contra fun hne => ha (Memory.cell_store_other _ _ hne)⟩
  · rcases exec_out_cases h with hsame | ⟨b, rfl, -, -⟩ | ⟨rfl, -⟩
    · exact absurd hsame hout
    · exact ⟨b, .inl rfl⟩
    · exact ⟨s.ckB, .inr rfl⟩

/-! ## The event (60_exceptions.md R220) -/

/-- The operation of the chain labels the step as the event table has it. -/
theorem event_of_exec_chainOp {s t : State} {b : Byte} (h : exec (chainOp Config.hardware s.st b) s = .next t)
    (hevent : s.event = .none) : t.event = tableEvent s b := by
  rcases chainOp_cases Config.hardware s.st b with ⟨rfl, hop⟩ | ⟨hb, ⟨hst, rfl⟩, hop⟩ | ⟨hb, hb2, hop⟩ <;> rw [hop] at h
  · cases (exec_resync s).symm.trans h
    simp only [tableEvent, if_true, inFrame_iff, ite_not, hevent]
  · cases h
    simp [tableEvent, hst, hevent]
  · have hb : b ≠ 0xB5#8 := hb
    have hlen := lenNext_toNat_eq_declaredLen b s
    cases hst : s.st with
    | idle =>
      rw [hst] at h
      cases h
      simp [tableEvent, hst, hb]
    | sawSync1 =>
      have hb2 : b ≠ 0x62#8 := fun hb => hb2 ⟨hst, hb⟩
      rw [hst] at h
      cases h
      simp [tableEvent, hst, hb, hb2]
    | sawSync2 | haveClass | haveId =>
      rw [hst] at h
      cases h
      simp [tableEvent, hst, hb, hevent]
    | haveLengthLow =>
      rw [hst] at h
      cases (exec_lenhi b s).symm.trans h
      rcases lenhi_cases Config.hardware b s with ⟨hover, heq⟩ | ⟨hfit, -, heq⟩ | ⟨hfit, -, heq⟩ <;>
        rw [heq]
      · simp [tableEvent, hst, hb, hlen ▸ hover]
      · simp [tableEvent, hst, hb, hevent, hlen ▸ hfit]
      · simp [tableEvent, hst, hb, hevent, hlen ▸ hfit]
    | haveLengthHigh =>
      rw [hst] at h
      obtain ⟨-, rfl⟩ := payload_cases h
      simp [tableEvent, hst, hb, hevent]
    | havePayload =>
      rw [hst] at h
      cases (exec_cka b s).symm.trans h
      by_cases hck : b = s.ckA
      · simp [tableEvent, hst, hb, ← hck, hevent]
      · simp [tableEvent, hst, hb, hck]
    | haveChecksumA =>
      rw [hst] at h
      rcases exec_ckb_cases h with ⟨rfl, rfl⟩ | ⟨hck, rfl⟩
      · simp [tableEvent, hst, hb, delivered, hevent]
      · simp [tableEvent, hst, hb, hck]

/-- Settles O42: the step performs the chain's operation on the state with its label cleared. -/
theorem stepEventsFollowTheEventTable : Obligations.StepEventsFollowTheEventTable := by
  unfold Obligations.StepEventsFollowTheEventTable
  intro s t e rest hin hrst hvalid h
  rw [step_of_byte hin hrst hvalid] at h
  exact event_of_exec_chainOp (s := s.begin rest) h rfl

/-! ## The movement of the sequencer (40_sync.md R115) -/

/-- Settles O43: each row of the next-state table is one of the five. -/
theorem stateMovesForwardOrEndsTheFrame : Obligations.StateMovesForwardOrEndsTheFrame := by
  unfold Obligations.StateMovesForwardOrEndsTheFrame
  intro s t e rest hin hrst hvalid h
  obtain ⟨-, hcols⟩ := columns_of_step hin hrst hvalid h
  rw [hcols.st]
  by_cases hb : e.inByte = 0xB5#8
  · simp [tableNext, hb]
  · cases hst : s.st with
    | idle | sawSync2 | haveClass | haveId | haveChecksumA => simp [tableNext, hst, hb]
    | sawSync1 => by_cases hb2 : e.inByte = 0x62#8 <;> simp [tableNext, hst, hb, hb2]
    | haveLengthLow =>
      by_cases hover : 1000 < declaredLen s e.inByte
      · simp [tableNext, hst, hb, hover]
      · by_cases hzero : declaredLen s e.inByte = 0 <;> simp [tableNext, hst, hb, hover, hzero]
    | haveLengthHigh => by_cases hlast : s.cnt.toNat + 1 = s.len.toNat <;> simp [tableNext, hst, hb, hlast]
    | havePayload =>
      by_cases hck : e.inByte = s.ckA
      · simp [tableNext, hst, hb, ← hck]
      · simp [tableNext, hst, hb, hck]

/-! ## The strobes (10_state.md R40) -/

/-- At the next edge the producer presents a byte, and no reset comes with it. -/
def TakesByte (s : State) (e : Edge) (rest : List Edge) : Prop :=
  s.inputs = e :: rest ∧ e.rst = false ∧ e.inValid = true

/-- A step without a byte puts out nothing. -/
theorem out_of_step_without_byte {s t : State} (h : step s = .next t) (hno : ∀ e rest, ¬ TakesByte s e rest) :
    t.out = .none := by
  rcases step_cases s with ⟨-, hs⟩ | ⟨e, rest, hin, ⟨-, hs⟩ | ⟨hrst, hvalid, -⟩ | ⟨-, -, hs⟩⟩
  · cases hs.symm.trans h
    rfl
  · cases hs.symm.trans h
    rfl
  · exact absurd ⟨hin, hrst, hvalid⟩ (hno e rest)
  · cases hs.symm.trans h
    rfl

/-- The table's output column, as the two strobes. -/
theorem TableColumns.strobes {s t : State} {b : Byte} (h : TableColumns s b t) :
    (t.out.frameValid = true ↔ s.st = .haveChecksumA ∧ b ≠ 0xB5 ∧ b = s.ckB) ∧
    (t.out.ovl = true ↔ s.st = .haveLengthLow ∧ b ≠ 0xB5 ∧ 1000 < declaredLen s b) := by
  have hout := h.output
  split at hout
  next hover =>
    refine ⟨iff_of_false (by simp [hout, Output.frameValid]) ?_, iff_of_true (hout ▸ rfl) hover⟩
    rintro ⟨hst, -⟩
    cases hover.1.symm.trans hst
  next hover =>
    split at hout
    next hmatch =>
      obtain ⟨r, hr, -⟩ := hout
      exact ⟨iff_of_true (hr ▸ rfl) hmatch, iff_of_false (by simp [hr, Output.ovl]) hover⟩
    next hmatch =>
      exact ⟨iff_of_false (by simp [hout, Output.frameValid]) hmatch, iff_of_false (by simp [hout, Output.ovl]) hover⟩

/-- A property of a step's strobes that holds at an edge with a byte exactly when the byte meets a condition. -/
theorem strobe_iff {s t : State} (strobe : Output → Bool) (hnone : strobe .none = false) {P : Byte → Prop}
    (hcols : ∀ b, TableColumns s b t → (strobe t.out = true ↔ P b)) (h : step s = .next t) :
    strobe t.out = true ↔ ∃ e rest, s.inputs = e :: rest ∧ e.rst = false ∧ e.inValid = true ∧ P e.inByte := by
  constructor
  · intro hone
    by_contra hno
    have hout : t.out = .none := by
      refine out_of_step_without_byte h fun e rest ⟨hin, hrst, hvalid⟩ => hno ⟨e, rest, hin, hrst, hvalid, ?_⟩
      exact (hcols _ (columns_of_step hin hrst hvalid h).2).1 hone
    rw [hout, hnone] at hone
    cases hone
  · rintro ⟨e, rest, hin, hrst, hvalid, hP⟩
    exact (hcols _ (columns_of_step hin hrst hvalid h).2).2 hP

@[simp] theorem ports_frameValid (o : Output) : o.ports.frameValid = o.frameValid := by cases o <;> rfl

@[simp] theorem ports_ovl (o : Output) : o.ports.ovl = o.ovl := by cases o <;> rfl

/-- Settles O57: each strobe stands for one constructor of the output, and the output column of the table says when a step has
it. -/
theorem strobesMarkDeliveryAndRejection : Obligations.StrobesMarkDeliveryAndRejection := by
  unfold Obligations.StrobesMarkDeliveryAndRejection
  refine ⟨fun o => ?_, fun r => rfl, fun l => ⟨rfl, rfl⟩, fun s t h => ?_⟩
  · cases o <;> simp [Output.frameValid, Output.ovl]
  · rw [ports_frameValid, ports_ovl]
    exact ⟨strobe_iff Output.frameValid rfl (fun _ hcols => hcols.strobes.1) h,
      strobe_iff Output.ovl rfl (fun _ hcols => hcols.strobes.2) h⟩

/-! ## The pending edges take no part (00_scope.md R13) -/

/-- The same operation with other edges to come does the same, and leaves those edges. -/
theorem exec_with_inputs {i : Instr} {s t : State} (es : List Edge) (h : exec i s = .next t) :
    exec i { s with inputs := es } = .next { t with inputs := es } := by
  cases i with
  | resync =>
    cases (exec_resync s).symm.trans h
    exact exec_resync _
  | sync2 | ignoreIdle | ignoreSync1 | cls | ident | lenlo | decPosition | decDop | decVelocity | decStatus |
    decUnhandled =>
    cases h
    rfl
  | lenhi b =>
    cases h
    rw [exec_lenhi, lenhi, lenhi]
    split_ifs <;> rfl
  | payload b =>
    obtain ⟨hcnt, rfl⟩ := payload_cases h
    exact payload_next Config.hardware b _ hcnt
  | cka b =>
    cases (exec_cka b s).symm.trans h
    rw [exec_cka]
    split_ifs <;> rfl
  | ckb b =>
    rw [exec_ckb]
    rcases exec_ckb_cases h with ⟨rfl, rfl⟩ | ⟨hne, rfl⟩
    · exact congrArg _ (ckb_match Config.hardware { s with inputs := es })
    · exact congrArg _ (ckb_mismatch Config.hardware { s with inputs := es } hne)

/-- `feed` of a block answers what the chain's operation leaves in the block and puts out. -/
theorem feedBlock_eq_next_iff {blk blk' : Block} {b : Byte} {o : Output} :
    feedBlock Config.hardware exec blk b = .next (blk', o) ↔
      ∃ t, exec (chainOp Config.hardware blk.st b) (blk.withInputs []) = .next t ∧ t.toBlock = blk' ∧ t.out = o := by
  rw [feedBlock, feed_eq, Block.withInputs_st]
  cases exec (chainOp Config.hardware blk.st b) (blk.withInputs []) <;> simp

/-- Settles O8: a step with a byte is the chain's operation on the block with its outputs cleared; with the edges still to come
taken out, that is `feed`. -/
theorem stepOnAByteRunsTheDecodedInstruction : Obligations.StepOnAByteRunsTheDecodedInstruction := by
  unfold Obligations.StepOnAByteRunsTheDecodedInstruction
  refine ⟨fun s e rest i hin hrst hvalid hdec => ?_, fun s e rest blk o hin hrst hvalid => ?_⟩
  · rw [step_of_byte hin hrst hvalid, decodeSB_eq_ok_iff.1 hdec]
    rfl
  · rw [feedBlock_eq_next_iff, step_of_byte hin hrst hvalid]
    constructor
    · rintro ⟨t, hexec, rfl, rfl⟩
      exact ⟨_, exec_with_inputs rest hexec, rfl, rfl, rfl⟩
    · rintro ⟨t, hexec, rfl, rfl, -⟩
      exact ⟨_, exec_with_inputs [] hexec, rfl, rfl⟩

/-- Settles O24: the operation of the chain answers but at the absent write, and CKB on a match delivers with no condition on
`len`. -/
theorem feedIsTotalButForTheAbsentWrite : Obligations.FeedIsTotalButForTheAbsentWrite := by
  unfold Obligations.FeedIsTotalButForTheAbsentWrite
  refine ⟨fun blk b habsent => ?_, fun blk b hst hb hck => ?_⟩
  · have hcnt (hst : blk.st = .haveLengthHigh) (hb : b ≠ 0xB5) : blk.cnt.toNat < 1000 :=
      Nat.lt_of_not_le fun hle => habsent ⟨hst, hb, hle⟩
    obtain ⟨t, hexec, -, -⟩ := meetsTable_of_cnt_lt (s := blk.withInputs []) hcnt rfl
    exact ⟨_, feedBlock_eq_next_iff.2 ⟨t, hexec, rfl, rfl⟩⟩
  · subst hck
    have hop : chainOp Config.hardware blk.st blk.ckB = .ckb blk.ckB :=
      (chainOp_eq_rowOp_instr (k := .haveChecksumA) rfl).2 ⟨hst, hb, rfl⟩
    have hexec := (exec_ckb blk.ckB _).trans (congrArg _ (ckb_match Config.hardware (blk.withInputs [])))
    exact ⟨_, feedBlock_eq_next_iff.2 ⟨_, hop ▸ hexec, rfl, rfl⟩, rfl, recordBytes_length ..⟩

/-! ## The class takes no part (44_unpack_dispatch.md R197) -/

/-- The same operation from another class does the same, but for the class it leaves and the one its record has. -/
theorem exec_with_cls {i : Instr} {s t : State} (x : Byte) (hout : s.out = .none) (h : exec i s = .next t) :
    ∃ y, exec i { s with cls := x } = .next { t with cls := y, out := t.out.withCls x } := by
  obtain ⟨blk, es, _, unpacked, event⟩ := s
  cases hout
  cases i with
  | cls b =>
    cases h
    exact ⟨b, rfl⟩
  | resync =>
    cases (exec_resync _).symm.trans h
    exact ⟨x, exec_resync _⟩
  | sync2 | ignoreIdle | ignoreSync1 | ident | lenlo | decPosition | decDop | decVelocity | decStatus | decUnhandled =>
    cases h
    exact ⟨x, rfl⟩
  | lenhi b =>
    cases h
    refine ⟨x, ?_⟩
    rw [exec_lenhi, lenhi, lenhi]
    split_ifs <;> rfl
  | payload b =>
    obtain ⟨hcnt, rfl⟩ := payload_cases h
    exact ⟨x, payload_next Config.hardware b _ hcnt⟩
  | cka b =>
    cases (exec_cka b _).symm.trans h
    refine ⟨x, ?_⟩
    rw [exec_cka]
    split_ifs <;> rfl
  | ckb b =>
    refine ⟨x, ?_⟩
    rw [exec_ckb]
    rcases exec_ckb_cases h with ⟨rfl, rfl⟩ | ⟨hne, rfl⟩
    · exact congrArg _ (ckb_match Config.hardware ⟨{ blk with cls := x }, es, .none, unpacked, event⟩)
    · exact congrArg _ (ckb_mismatch Config.hardware _ hne)

/-- Settles O56: in each kind of step the states differ in `cls` alone, and the chain looks at the state and the byte. -/
theorem classInfluencesNothing : Obligations.ClassInfluencesNothing := by
  unfold Obligations.ClassInfluencesNothing
  intro s t x h
  suffices hsame : ∃ y, step { s with cls := x } = .next { t with cls := y, out := t.out.withCls x } by
    obtain ⟨y, hstep⟩ := hsame
    exact ⟨_, hstep, rfl, rfl, rfl, rfl, rfl, rfl, rfl, rfl, rfl, rfl, rfl⟩
  rcases step_cases s with ⟨hin, hs⟩ | ⟨e, rest, hin, ⟨hrst, hs⟩ | ⟨hrst, hvalid, hs⟩ | ⟨hrst, hvalid, hs⟩⟩
  · cases hs.symm.trans h
    exact ⟨x, step_of_no_edge (s := { s with cls := x }) hin⟩
  · cases hs.symm.trans h
    exact ⟨_, step_of_reset (s := { s with cls := x }) hin hrst⟩
  · rw [step_of_byte hin hrst hvalid] at h
    rw [step_of_byte (s := { s with cls := x }) hin hrst hvalid]
    exact exec_with_cls x rfl h
  · cases hs.symm.trans h
    exact ⟨x, step_of_idle_edge (s := { s with cls := x }) hin hrst hvalid⟩

end Sys2Proof.Machine
end

section
/-! The invariant of 10_state.md R38: the length bounds at every capacity, the bytes of the frame in progress, and what follows
for runs and for deliveries. -/

namespace Sys2Proof.Machine

/-! ## The length bounds at every capacity (10_state.md R38 (a) to (c)) -/

section LengthBounds

variable {c : Config} {s : State}

/-- LENHI sets the bounds from any state: the count is zero, and the length has been compared with the capacity. -/
theorem lengthInv_lenhi (c : Config) (b : Byte) (s : State) : LengthInv c (lenhi c b s) := by
  rcases lenhi_cases c b s with ⟨-, heq⟩ | ⟨hfit, hzero, heq⟩ | ⟨hfit, hpos, heq⟩ <;> rw [heq]
  · exact lengthInv_of_rank_lt_six c (by simp)
  · exact ⟨nofun, fun _ => ⟨hzero.symm, hfit⟩⟩
  · refine ⟨fun _ => ⟨Nat.pos_of_ne_zero fun hnum => hpos (BitVec.eq_of_toNat_eq hnum), hfit⟩, ?_⟩
    rintro (h | h) <;> cases h

/-- The count goes up by one towards the length, or reaches it. -/
theorem exists_payload_of_lengthInv (b : Byte) (h : LengthInv c s) (hst : s.st = .haveLengthHigh) :
    ∃ t, payload c b s = .next t ∧ LengthInv c t ∧ Memory.cell t.buf s.cnt.toNat = b ∧
      ∀ a, a ≠ s.cnt.toNat → Memory.cell t.buf a = Memory.cell s.buf a := by
  obtain ⟨hlt, hfit⟩ := h.receiving hst
  refine ⟨_, payload_next c b s (hlt.trans_le hfit), ?_, Memory.cell_store_same .., fun _ => Memory.cell_store_other _ _⟩
  by_cases hlast : s.cnt + 1 = s.len
  · simp only [if_pos hlast]
    exact ⟨nofun, fun _ => ⟨hlast, hfit⟩⟩
  · simp only [if_neg hlast]
    have hbound := len_lt s.len
    have hsucc : (s.cnt + 1).toNat = s.cnt.toNat + 1 := BitVec.toNat_add_of_lt (by simpa using by omega)
    have hne : (s.cnt + 1).toNat ≠ s.len.toNat := fun hnum => hlast (BitVec.eq_of_toNat_eq hnum)
    have hbelow : (s.cnt + 1).toNat < s.len.toNat := by omega
    refine ⟨fun _ => ⟨hbelow, hfit⟩, ?_⟩
    rintro (h | h) <;> cases h

/-- With the bounds, the operation of the chain answers and keeps them. -/
theorem exists_perform_chainOp (b : Byte) (h : LengthInv c s) :
    ∃ t, perform c (chainOp c s.st b) s = .next t ∧ LengthInv c t := by
  rcases chainOp_cases c s.st b with ⟨-, hop⟩ | ⟨-, -, hop⟩ | ⟨-, -, hop⟩ <;> rw [hop]
  · exact ⟨_, exec_resync s, lengthInv_of_rank_lt_six c (by simp)⟩
  · exact ⟨_, exec_sync2 s, lengthInv_of_rank_lt_six c (by simp)⟩
  · cases hst : s.st with
    | idle => exact ⟨_, exec_ignoreIdle s, lengthInv_of_rank_lt_six c (by simp [hst])⟩
    | sawSync1 => exact ⟨_, exec_ignoreSync1 s, lengthInv_of_rank_lt_six c (by simp [hst])⟩
    | sawSync2 => exact ⟨_, exec_cls b s, lengthInv_of_rank_lt_six c (by simp)⟩
    | haveClass => exact ⟨_, exec_ident b s, lengthInv_of_rank_lt_six c (by simp)⟩
    | haveId => exact ⟨_, exec_lenlo b s, lengthInv_of_rank_lt_six c (by simp)⟩
    | haveLengthLow => exact ⟨_, rfl, lengthInv_lenhi c b s⟩
    | haveLengthHigh =>
      obtain ⟨t, ht, hinv, -⟩ := exists_payload_of_lengthInv b h hst
      exact ⟨t, ht, hinv⟩
    | havePayload =>
      refine ⟨_, exec_cka b s, ?_⟩
      split
      · exact ⟨nofun, fun _ => h.received (.inl hst)⟩
      · exact lengthInv_of_rank_lt_six c (by simp)
    | haveChecksumA =>
      refine ⟨_, rfl, ?_⟩
      rcases ckb_cases c b s with ⟨-, heq⟩ | ⟨-, heq⟩ <;> rw [heq] <;> exact lengthInv_of_rank_lt_six c (by simp [delivered])

/-- The start of a step leaves what the bounds speak of. -/
theorem LengthInv.begin (h : LengthInv c s) (rest : List Edge) : LengthInv c (s.begin rest) := ⟨h.receiving, h.received⟩

theorem exists_stepAt (h : LengthInv c s) : ∃ t, stepAt c s = .next t ∧ LengthInv c t := by
  rw [stepAt]
  rcases stepWith_cases c (perform c) s with ⟨-, hs⟩ | ⟨e, rest, -, ⟨-, hs⟩ | ⟨-, -, hs⟩ | ⟨-, -, hs⟩⟩ <;> rw [hs]
  · exact ⟨_, rfl, h.begin []⟩
  · exact ⟨_, rfl, lengthInv_of_rank_lt_six c (by simp)⟩
  · rw [feed_eq]
    exact exists_perform_chainOp e.inByte (h.begin rest)
  · exact ⟨_, rfl, h.begin rest⟩

end LengthBounds

theorem stepAt_hardware (s : State) : stepAt Config.hardware s = step s := by
  rw [stepAt, perform_hardware, step]

/-- Settles O47: only LENHI sets a length and a count, within the capacity it compares with, and PAYLOAD counts one byte on. -/
theorem lengthBoundsHoldAtEveryCapacity : Obligations.LengthBoundsHoldAtEveryCapacity := by
  unfold Obligations.LengthBoundsHoldAtEveryCapacity
  refine ⟨fun c _ => ⟨fun _ _ => lengthInv_of_rank_lt_six c (by simp), fun _ => exists_stepAt, lengthInv_lenhi c,
    fun b s h hst => ?_⟩, stepAt_hardware⟩
  obtain ⟨t, ht, -, hcells⟩ := exists_payload_of_lengthInv b h hst
  exact ⟨t, ht, hcells⟩

/-! ## The bytes of the frame in progress (10_state.md R38 (d)) -/

/-- The accumulators are the checksum of the bytes taken since SYNC2, and none of these is the first sync byte. -/
def FrameInv (s : State) : Prop :=
  (SeqState.inFrame s.st = true → (s.ckA, s.ckB) = ckSum (covered s)) ∧ ∀ b ∈ covered s, b ≠ 0xB5

theorem frameInv_of_not_inFrame {s : State} (h : s.st = .idle ∨ s.st = .sawSync1) : FrameInv s := by
  rcases h with h | h <;> simp [FrameInv, covered, h, SeqState.inFrame]

/-- An operation that folds in the byte it takes keeps the invariant of the frame. -/
theorem FrameInv.append {s t : State} {b : Byte} (h : FrameInv s) (hst : SeqState.inFrame s.st = true) (hb : b ≠ 0xB5)
    (hsums : SameSums (ckUpdate b s) t) (hcov : covered t = covered s ++ [b]) : FrameInv t := by
  obtain ⟨hck, hsync⟩ := h
  obtain ⟨hA, hB⟩ := hsums
  refine ⟨fun _ => ?_, fun x hx => ?_⟩
  · rw [hcov, ckSum_append_singleton, ← hck hst, hA, hB]
    rfl
  · rw [hcov, List.mem_append, List.mem_singleton] at hx
    rcases hx with hx | rfl
    · exact hsync x hx
    · exact hb

/-- An operation that takes no byte into the frame and leaves the accumulators keeps the invariant of the frame. -/
theorem FrameInv.of_covered_eq {s t : State} (h : FrameInv s) (hst : SeqState.inFrame s.st = true) (hsums : SameSums s t)
    (hcov : covered t = covered s) : FrameInv t := by
  obtain ⟨hck, hsync⟩ := h
  obtain ⟨hA, hB⟩ := hsums
  exact ⟨fun _ => by rw [hcov, ← hck hst, hA, hB], hcov ▸ hsync⟩

/-- Once the length is known, the bytes taken are the header's four and the cells below the count. -/
theorem covered_of_six_le_rank {s : State} (h : 6 ≤ SeqState.rank s.st) :
    covered s = s.cls :: s.id :: s.len.extractLsb' 0 8 :: s.len.extractLsb' 8 8 ::
      (List.range s.cnt.toNat).map (Memory.cell s.buf) := by
  cases hst : s.st with
  | idle | sawSync1 | sawSync2 | haveClass | haveId | haveLengthLow => simp [hst] at h
  | haveLengthHigh | havePayload | haveChecksumA => simp [covered, hst]

theorem lenLow_low (b : Byte) : (lenLow b).extractLsb' 0 8 = b := by
  refine BitVec.eq_of_toNat_eq ?_
  rw [BitVec.extractLsb'_toNat, lenLow_toNat]
  exact Nat.mod_eq_of_lt b.isLt

theorem lenNext_low (b : Byte) (len : LenReg) : (lenNext b len).extractLsb' 0 8 = len.extractLsb' 0 8 :=
  BitVec.extractLsb'_append_eq_right

theorem lenNext_high (b : Byte) (len : LenReg) : (lenNext b len).extractLsb' 8 8 = b := BitVec.extractLsb'_append_eq_left

/-- The cells below a count after a store at it. -/
theorem map_cell_store_range_succ (m : Memory) (n : Nat) (b : Byte) :
    (List.range (n + 1)).map (Memory.cell (Memory.store m n b)) = (List.range n).map (Memory.cell m) ++ [b] := by
  rw [List.range_succ, List.map_append, List.map_singleton, Memory.cell_store_same]
  exact congrArg (· ++ [b]) (List.map_congr_left fun a ha =>
    Memory.cell_store_other _ _ (Nat.ne_of_lt (List.mem_range.1 ha)))

section ChainOp

variable {s t : State} {b : Byte}

theorem frameInv_lenhi (h : FrameInv s) (hst : s.st = .haveLengthLow) (hb : b ≠ 0xB5) :
    FrameInv (lenhi Config.hardware b s) := by
  rcases lenhi_cases Config.hardware b s with ⟨-, heq⟩ | ⟨-, -, heq⟩ | ⟨-, -, heq⟩ <;> rw [heq]
  · exact frameInv_of_not_inFrame (.inl rfl)
  · exact h.append (by rw [hst]; rfl) hb ⟨rfl, rfl⟩ (by simp [covered, hst, lenNext_low, lenNext_high])
  · exact h.append (by rw [hst]; rfl) hb ⟨rfl, rfl⟩ (by simp [covered, hst, lenNext_low, lenNext_high])

theorem frameInv_payload (h : FrameInv s) (hst : s.st = .haveLengthHigh) (hb : b ≠ 0xB5)
    (hexec : exec (.payload b) s = .next t) : FrameInv t := by
  have hold := covered_of_six_le_rank (s := s) (by simp [hst])
  have hsums := exec_sameSums_of_some hexec rfl
  obtain ⟨hcnt, rfl⟩ := payload_cases hexec
  refine h.append (by rw [hst]; rfl) hb hsums ?_
  rw [hold, covered_of_six_le_rank (by simp only; split <;> decide)]
  have hcount : (s.cnt + 1).toNat = s.cnt.toNat + 1 := cnt_succ_toNat hcnt
  simp only [hcount, map_cell_store_range_succ, List.cons_append, ckUpdate_cls, ckUpdate_id, ckUpdate_len]

/-- The operation of the chain keeps the invariant of the frame: SYNC2 begins it, the five operations of a frame add their
byte, CKA leaves it, and the others end it. -/
theorem FrameInv.exec_chainOp (h : FrameInv s) (hexec : exec (chainOp Config.hardware s.st b) s = .next t) :
    FrameInv t := by
  rcases chainOp_cases Config.hardware s.st b with ⟨-, hop⟩ | ⟨-, -, hop⟩ | ⟨hb, -, hop⟩ <;> rw [hop] at hexec
  · cases (exec_resync s).symm.trans hexec
    exact frameInv_of_not_inFrame (.inr rfl)
  · cases hexec
    exact ⟨fun _ => rfl, nofun⟩
  · cases hst : s.st with
    | idle | sawSync1 =>
      rw [hst] at hexec
      cases hexec
      exact frameInv_of_not_inFrame (by simp [hst])
    | sawSync2 | haveClass =>
      rw [hst] at hexec
      cases hexec
      exact h.append (by rw [hst]; rfl) hb ⟨rfl, rfl⟩ (by simp [covered, hst])
    | haveId =>
      rw [hst] at hexec
      cases hexec
      exact h.append (by rw [hst]; rfl) hb ⟨rfl, rfl⟩ (by simp [covered, hst, lenLow_low])
    | haveLengthLow =>
      rw [hst] at hexec
      cases hexec
      exact frameInv_lenhi h hst hb
    | haveLengthHigh =>
      rw [hst] at hexec
      exact frameInv_payload h hst hb hexec
    | havePayload =>
      rw [hst] at hexec
      cases (exec_cka b s).symm.trans hexec
      split
      · exact h.of_covered_eq (by rw [hst]; rfl) ⟨rfl, rfl⟩ (by simp [covered, hst])
      · exact frameInv_of_not_inFrame (.inl rfl)
    | haveChecksumA =>
      rw [hst] at hexec
      rcases exec_ckb_cases hexec with ⟨-, rfl⟩ | ⟨-, rfl⟩ <;> exact frameInv_of_not_inFrame (.inl rfl)

end ChainOp

/-! ## The whole invariant -/

theorem Inv.frame {s : State} (h : Inv s) : FrameInv s := ⟨h.checksum, h.noSync⟩

/-- The start of a step leaves what the invariant speaks of. -/
theorem Inv.begin {s : State} (h : Inv s) (rest : List Edge) : Inv (s.begin rest) :=
  ⟨h.bufWf, h.bufIn, h.lenLow, h.lengths.begin rest, h.checksum, h.noSync, h.matchedFirst⟩

/-- LENLO alone leads to `HaveLengthLow`. -/
theorem tableNext_eq_haveLengthLow {s : State} {b : Byte} (h : tableNext s b = .haveLengthLow) :
    s.st = .haveId ∧ b ≠ 0xB5 := by
  by_cases hb : b = 0xB5
  · rw [tableNext, if_pos hb] at h
    cases h
  · cases hst : s.st <;> rw [tableNext, if_neg hb, hst] at h
    case haveId => exact ⟨rfl, hb⟩
    case sawSync1 | haveLengthLow | haveLengthHigh | havePayload =>
      dsimp only at h
      split_ifs at h
    all_goals cases h

/-- A CKA byte that matched alone leads to `HaveChecksumA`. -/
theorem tableNext_eq_haveChecksumA {s : State} {b : Byte} (h : tableNext s b = .haveChecksumA) :
    s.st = .havePayload ∧ b ≠ 0xB5 ∧ b = s.ckA := by
  by_cases hb : b = 0xB5
  · rw [tableNext, if_pos hb] at h
    cases h
  · cases hst : s.st <;> rw [tableNext, if_neg hb, hst] at h
    case havePayload =>
      dsimp only at h
      split_ifs at h with hck
      exact ⟨rfl, hb, hck⟩
    case sawSync1 | haveLengthLow | haveLengthHigh =>
      dsimp only at h
      split_ifs at h
    all_goals cases h

/-- The operation of the chain keeps the invariant. -/
theorem Inv.exec_chainOp {s t : State} {b : Byte} (h : Inv s) (hout : s.out = .none)
    (hexec : exec (chainOp Config.hardware s.st b) s = .next t) : Inv t := by
  obtain ⟨-, hcols⟩ := columns_of_exec_chainOp hexec hout
  obtain ⟨hck, hsync⟩ := h.frame.exec_chainOp hexec
  have hbuf : Memory.wf t.buf ∧ Memory.inBounds 1000 t.buf := by
    rcases exec_buf_cases hexec with heq | ⟨x, -, hcnt, heq⟩ <;> rw [heq]
    · exact ⟨h.bufWf, h.bufIn⟩
    · exact ⟨Memory.store_wf _ x h.bufWf, Memory.store_inBounds x hcnt h.bufIn⟩
  have hlengths : LengthInv Config.hardware t := by
    obtain ⟨u, hu, hinv⟩ := exists_perform_chainOp b h.lengths
    rw [perform_hardware] at hu
    cases hu.symm.trans hexec
    exact hinv
  refine ⟨hbuf.1, hbuf.2, fun hst => ?_, hlengths, hck, hsync, fun hst => ?_⟩
  · have hfrom := tableNext_eq_haveLengthLow (hcols.st.symm.trans hst)
    rw [hcols.len, if_pos hfrom]
    exact b.isLt
  · obtain ⟨hfrom, hb, hmatch⟩ := tableNext_eq_haveChecksumA (hcols.st.symm.trans hst)
    have hsums : t.ckA = s.ckA ∧ t.ckB = s.ckB := by simpa [hfrom] using hcols.sums
    rw [hsums.1, ← hmatch]
    exact hb

/-- Settles O44: a reset leaves the invariant, waiting keeps it, and so does every operation of the chain. -/
theorem everyStepKeepsTheInvariant : Obligations.EveryStepKeepsTheInvariant := by
  unfold Obligations.EveryStepKeepsTheInvariant
  intro s t h hstep
  rcases step_cases s with ⟨-, hs⟩ | ⟨e, rest, -, ⟨-, hs⟩ | ⟨-, -, hs⟩ | ⟨-, -, hs⟩⟩ <;> rw [hs] at hstep
  · cases hstep
    exact h.begin []
  · cases hstep
    exact everyResetHasTheInvariant.1 e.draw rest
  · rw [feed_eq] at hstep
    exact (h.begin rest).exec_chainOp rfl hstep
  · cases hstep
    exact h.begin rest

/-- With the invariant a step answers, and what it answers has the invariant. -/
theorem Inv.exists_step {s : State} (h : Inv s) : ∃ t, step s = .next t ∧ Inv t := by
  obtain ⟨t, ht, -⟩ := exists_stepAt h.lengths
  rw [stepAt_hardware] at ht
  exact ⟨t, ht, everyStepKeepsTheInvariant s t h ht⟩

/-- Settles O46: by induction on the steps, each of which answers and keeps the invariant. -/
theorem noRunEverStops : Obligations.NoRunEverStops := by
  unfold Obligations.NoRunEverStops
  intro n
  induction n with
  | zero => exact fun s h => ⟨s, rfl, h⟩
  | succ n ih =>
    intro s h
    obtain ⟨t, hstep, ht⟩ := h.exists_step
    rw [runFrom_succ_of_next hstep]
    exact ih t ht

/-! ## A delivered frame is clean (70_reset_and_hazards.md R264) -/

/-- The length's bytes on the wire are the two bytes of the register. -/
theorem ofNat_toNat_low (l : LenReg) : BitVec.ofNat 8 l.toNat = l.extractLsb' 0 8 := rfl

theorem ofNat_toNat_high (l : LenReg) : BitVec.ofNat 8 (l.toNat / 256) = l.extractLsb' 8 8 := by
  rw [BitVec.extractLsb', Nat.shiftRight_eq_div_pow]

/-- In `HaveChecksumA` the bytes taken are those a checksum of the registers' frame covers. -/
theorem Inv.covered_eq_coveredBytes {s : State} (h : Inv s) (hst : s.st = .haveChecksumA) :
    covered s = coveredBytes s.cls s.id (recordBytes Config.hardware s.buf s.len.toNat) := by
  obtain ⟨hcnt, hfit⟩ := h.lengths.received (.inr hst)
  rw [covered_of_six_le_rank (by simp [hst]), coveredBytes, recordBytes_length, ofNat_toNat_low, ofNat_toNat_high,
    recordBytes_of_le s.buf hfit, hcnt]

/-- Settles O49: the step is a delivering CKB; by the invariant the bytes taken are the record's, their checksum is in the
accumulators, and none of the frame's bytes is the first sync byte. -/
theorem everyDeliveredFrameIsClean : Obligations.EveryDeliveredFrameIsClean := by
  unfold Obligations.EveryDeliveredFrameIsClean
  intro s t r h hstep hr
  obtain ⟨e, rest, hin, hrst, hvalid, hst, hsync, hck, rfl⟩ := step_frame_cases hstep hr
  cases hr
  have hsum : ckSum (coveredBytes s.cls s.id (recordBytes Config.hardware s.buf s.len.toNat)) = (s.ckA, s.ckB) := by
    rw [← h.covered_eq_coveredBytes hst, ← h.checksum (by rw [hst]; rfl)]
  have hlength := recordBytes_length Config.hardware s.buf s.len.toNat
  obtain ⟨-, hfit⟩ := h.lengths.received (.inr hst)
  refine ⟨⟨hlength.trans_le hfit, ?_⟩, hlength.symm, hst, (congrArg Prod.fst hsum).symm, e, rest, hin, hrst, hvalid,
    hck.trans (congrArg Prod.snd hsum).symm⟩
  intro b hb
  simp only [frameBytes, wireFrame, List.drop_succ_cons, List.drop_zero, List.mem_append, List.mem_cons, List.not_mem_nil,
    or_false] at hb
  rcases hb with hb | rfl | rfl
  · exact h.noSync b (h.covered_eq_coveredBytes hst ▸ hb)
  · exact (congrArg Prod.fst hsum).trans_ne (h.matchedFirst hst)
  · exact (congrArg Prod.snd hsum).trans_ne (hck ▸ hsync)

end Sys2Proof.Machine
end

section
/-! Runs (Host/Core.lean) put together from steps, and runs over the bytes of a stream: the two sync bytes (40_sync.md R118) and
the loose synchronisation (70_reset_and_hazards.md R265). -/

namespace Sys2Proof.Machine

/-! ## Runs -/

theorem runFrom_one {s t : State} (h : step s = .next t) : runFrom 1 s = .next t := runFrom_succ_of_next h

/-- A run is taken up where another ended. -/
theorem runFrom_add {m n : Nat} {s t u : State} (h : runFrom m s = .next t) (h' : runFrom n t = .next u) :
    runFrom (m + n) s = .next u := by
  induction m generalizing s with
  | zero =>
    cases h
    rwa [Nat.zero_add]
  | succ m ih =>
    obtain ⟨v, hstep, hrun⟩ := runFrom_succ_next h
    rw [Nat.succ_add, runFrom_succ_of_next hstep]
    exact ih hrun

/-- A run of `n` steps each of which puts out nothing. -/
structure SilentRun (n : Nat) (s t : State) : Prop where
  run    : runFrom n s = .next t
  silent : ∀ k, 1 ≤ k → k ≤ n → ∃ u, runFrom k s = .next u ∧ u.out = .none

theorem SilentRun.refl (s : State) : SilentRun 0 s s :=
  ⟨rfl, fun k h1 h0 => absurd (h1.trans h0) (by decide)⟩

/-- A silent step before a silent run. -/
theorem SilentRun.step {n : Nat} {s t u : State} (hstep : step s = .next t) (hout : t.out = .none)
    (h : SilentRun n t u) : SilentRun (n + 1) s u := by
  refine ⟨(runFrom_succ_of_next hstep).trans h.run, fun k h1 hk => ?_⟩
  obtain ⟨k, rfl⟩ : ∃ j, k = j + 1 := ⟨k - 1, by omega⟩
  rw [runFrom_succ_of_next hstep]
  cases k with
  | zero => exact ⟨t, rfl, hout⟩
  | succ k => exact h.silent (k + 1) (by omega) (by omega)

theorem SilentRun.trans {m n : Nat} {s t u : State} (h : SilentRun m s t) (h' : SilentRun n t u) :
    SilentRun (m + n) s u := by
  refine ⟨runFrom_add h.run h'.run, fun k h1 hk => ?_⟩
  by_cases hm : k ≤ m
  · exact h.silent k h1 hm
  · obtain ⟨j, rfl⟩ : ∃ j, k = m + j := ⟨k - m, by omega⟩
    obtain ⟨v, hv, hout⟩ := h'.silent j (by omega) (by omega)
    exact ⟨v, runFrom_add h.run hv, hout⟩

/-! ## The edges of a stream -/

@[simp] theorem edgesOf_nil : edgesOf [] = [] := rfl

@[simp] theorem edgesOf_cons (b : Byte) (bs : List Byte) : edgesOf (b :: bs) = Edge.ofByte b :: edgesOf bs := rfl

@[simp] theorem edgesOf_append (bs cs : List Byte) : edgesOf (bs ++ cs) = edgesOf bs ++ edgesOf cs := List.map_append

/-- The first sync byte is taken in every state, and only `st` changes. -/
theorem step_of_sync1 {s : State} {rest : List Edge} (hin : s.inputs = Edge.ofByte 0xB5 :: rest) :
    ∃ t, step s = .next t ∧ t.inputs = rest ∧ t.st = .sawSync1 ∧ t.out = .none := by
  obtain ⟨t, hstep, hinputs, hcols⟩ := exists_step_of_cnt_lt hin fun _ hne => absurd rfl hne
  exact ⟨t, hstep, hinputs, hcols.st, by simpa using hcols.output⟩

/-- In `SawSync1` the second sync byte begins a frame with a clear checksum, and changes nothing else. -/
theorem step_of_sync2 {s : State} {rest : List Edge} (hst : s.st = .sawSync1) (hin : s.inputs = Edge.ofByte 0x62 :: rest) :
    step s = .next { s.begin rest with st := .sawSync2, ckA := 0, ckB := 0 } := by
  rw [step_of_byte hin rfl rfl, hst]
  exact exec_sync2 (s.begin rest)

/-- In `SawSync1` any other byte changes nothing. -/
theorem step_of_other_in_sawSync1 {s : State} {b : Byte} {rest : List Edge} (hst : s.st = .sawSync1) (h1 : b ≠ 0xB5)
    (h2 : b ≠ 0x62) (hin : s.inputs = Edge.ofByte b :: rest) : step s = .next (ignoreByte (s.begin rest)) := by
  rw [step_of_byte hin rfl rfl, hst,
    show chainOp Config.hardware .sawSync1 (Edge.ofByte b).inByte = .ignoreSync1 from chainOp_eq_ignoreSync1.2 ⟨rfl, h1, h2⟩]
  rfl

/-- The two sync bytes put out nothing and begin a frame, from every state. -/
theorem silentRun_of_syncs {s : State} {rest : List Edge} (hin : s.inputs = edgesOf [0xB5, 0x62] ++ rest) :
    ∃ t, SilentRun 2 s t ∧ t.st = .sawSync2 ∧ t.ckA = 0 ∧ t.ckB = 0 ∧ t.inputs = rest := by
  obtain ⟨t, hstep, hinputs, hst, hout⟩ := step_of_sync1 hin
  exact ⟨_, .step hstep hout (.step (step_of_sync2 hst hinputs) rfl (.refl _)), rfl, rfl, rfl, rfl⟩

/-- Settles O52: RESYNC, then SYNC2. -/
theorem twoSyncBytesReachSawSync2 : Obligations.TwoSyncBytesReachSawSync2 := by
  unfold Obligations.TwoSyncBytesReachSawSync2
  intro s rest hin
  obtain ⟨t, hrun, hfacts⟩ := silentRun_of_syncs hin
  exact ⟨t, hrun.run, hfacts⟩

/-- Bytes that are no sync bytes are skipped in `SawSync1`. -/
theorem runFrom_of_others_in_sawSync1 {bs : List Byte} (hbs : ∀ b ∈ bs, b ≠ 0xB5 ∧ b ≠ 0x62) {s : State}
    {rest : List Edge} (hst : s.st = .sawSync1) (hin : s.inputs = edgesOf bs ++ rest) :
    ∃ t, runFrom bs.length s = .next t ∧ t.st = .sawSync1 ∧ SameRegs s t ∧ SameCells s t ∧ t.inputs = rest := by
  induction bs generalizing s with
  | nil => exact ⟨s, rfl, hst, ⟨rfl, rfl, rfl, rfl, rfl, rfl⟩, fun _ => rfl, hin⟩
  | cons b bs ih =>
    obtain ⟨⟨h1, h2⟩, hbs⟩ := List.forall_mem_cons.1 hbs
    obtain ⟨t, hrun, hfacts⟩ := ih hbs (s := ignoreByte (s.begin (edgesOf bs ++ rest))) hst rfl
    exact ⟨t, (runFrom_succ_of_next (step_of_other_in_sawSync1 hst h1 h2 hin)).trans hrun, hfacts⟩

/-- Settles O53: by induction on the skipped bytes, and then SYNC2. -/
theorem looseSyncSkipsOtherBytes : Obligations.LooseSyncSkipsOtherBytes := by
  unfold Obligations.LooseSyncSkipsOtherBytes
  intro s bs rest hst hbs hin
  obtain ⟨t, hrun, ht, hregs, hcells, hinputs⟩ :=
    runFrom_of_others_in_sawSync1 (rest := edgesOf [0x62] ++ rest) hbs hst (by simpa using hin)
  refine ⟨⟨t, hrun, ht, hregs, hcells⟩, _, runFrom_add hrun (runFrom_one (step_of_sync2 ht hinputs)), rfl, rfl, rfl, ?_⟩
  obtain ⟨hcls, hid, hlen, hcnt, -, -⟩ := hregs
  exact ⟨hcls, hid, hlen, hcnt, hcells, rfl⟩

end Sys2Proof.Machine
end

section
/-! How long the delivered values stay readable (10_state.md R44, 70_reset_and_hazards.md R270). -/

namespace Sys2Proof.Machine

/-- A step takes one edge. -/
theorem inputs_of_step {s t : State} (h : step s = .next t) : t.inputs = s.inputs.tail := by
  rcases step_cases s with ⟨hin, hs⟩ | ⟨e, rest, hin, ⟨-, hs⟩ | ⟨hrst, hvalid, -⟩ | ⟨-, -, hs⟩⟩ <;> rw [hin]
  · cases hs.symm.trans h
    rfl
  · cases hs.symm.trans h
    rfl
  · exact (columns_of_step hin hrst hvalid h).1
  · cases hs.symm.trans h
    rfl

/-- `t` may be reached from `s`, a state in `Idle`, in `n` steps without a reset: no state of a frame comes sooner than its place
in the order, the count no sooner than LENHI clears it, and so no register or cell is written within its window. -/
structure Window (s : State) (n : Nat) (t : State) : Prop where
  early : SeqState.rank t.st ≤ 6 → SeqState.rank t.st ≤ n
  count : t.st = .haveLengthHigh → t.cnt.toNat + 6 ≤ n
  cls   : n ≤ 2 → t.cls = s.cls
  id    : n ≤ 3 → t.id = s.id
  len   : n ≤ 4 → t.len = s.len
  cells : ∀ a, n ≤ 6 + a → Memory.cell t.buf a = Memory.cell s.buf a

section Window

variable {s t u : State} {n : Nat}

theorem Window.refl (h : s.st = .idle) : Window s 0 s := by
  refine ⟨fun _ => ?_, fun hst => (nomatch h.symm.trans hst), fun _ => rfl, fun _ => rfl, fun _ => rfl, fun _ _ => rfl⟩
  rw [h, rank_idle]

/-- A step without a byte lets the window pass. -/
theorem Window.begin (h : Window s n t) (rest : List Edge) : Window s (n + 1) (t.begin rest) :=
  ⟨fun hr => (h.early hr).trans (Nat.le_succ n), fun hst => (h.count hst).trans (Nat.le_succ n),
    fun hn => h.cls (Nat.le_of_succ_le hn), fun hn => h.id (Nat.le_of_succ_le hn), fun hn => h.len (Nat.le_of_succ_le hn),
    fun a hn => h.cells a (Nat.le_of_succ_le hn)⟩

/-- A state of a frame, up to `HaveLengthHigh`, is reached no sooner than its place in the order. -/
theorem Window.rank_le (h : Window s n t) {k : SeqState} (hst : t.st = k) (hk : SeqState.rank k ≤ 6) : SeqState.rank k ≤ n :=
  hst ▸ h.early (hst ▸ hk)

/-- Below `HavePayload` the sequencer moves at most one place on, and comes back from the later states only to the first two. -/
theorem rank_le_succ_of_movement {e : Edge} {rest : List Edge} (hin : t.inputs = e :: rest) (hrst : e.rst = false)
    (hvalid : e.inValid = true) (hstep : step t = .next u) (hu : SeqState.rank u.st ≤ 6) :
    SeqState.rank u.st ≤ SeqState.rank t.st + 1 ∧ (SeqState.rank t.st ≤ 6 ∨ SeqState.rank u.st ≤ 1) := by
  rcases stateMovesForwardOrEndsTheFrame t u e rest hin hrst hvalid hstep with
    ⟨hst, -⟩ | hnext | ⟨-, hst, -⟩ | ⟨hst, -⟩ | ⟨hst, -⟩
  · rw [hst] at hu ⊢
    exact ⟨Nat.le_succ _, .inl hu⟩
  · exact ⟨hnext.le, .inl (by omega)⟩
  · rw [hst] at hu
    exact absurd hu (by decide)
  · rw [hst, rank_sawSync1]
    exact ⟨Nat.le_add_left .., .inr le_rfl⟩
  · rw [hst, rank_idle]
    exact ⟨Nat.zero_le _, .inr (Nat.zero_le _)⟩

/-- LENHI and PAYLOAD alone lead to `HaveLengthHigh`. -/
theorem tableNext_eq_haveLengthHigh {b : Byte} (h : tableNext t b = .haveLengthHigh) :
    b ≠ 0xB5 ∧ (t.st = .haveLengthLow ∨ t.st = .haveLengthHigh) := by
  by_cases hb : b = 0xB5
  · rw [tableNext, if_pos hb] at h
    cases h
  · cases hst : t.st <;> rw [tableNext, if_neg hb, hst] at h
    case haveLengthLow => exact ⟨hb, .inl rfl⟩
    case haveLengthHigh => exact ⟨hb, .inr rfl⟩
    case sawSync1 | havePayload =>
      dsimp only at h
      split_ifs at h
    all_goals cases h

/-- A step with a byte lets the window pass: the state that would write a register is reached only when its window is over. -/
theorem Window.byte (h : Window s n t) {e : Edge} {rest : List Edge} (hin : t.inputs = e :: rest) (hrst : e.rst = false)
    (hvalid : e.inValid = true) (hstep : step t = .next u) : Window s (n + 1) u := by
  obtain ⟨-, hcols⟩ := columns_of_step hin hrst hvalid hstep
  refine ⟨fun hu => ?_, fun hst => ?_, fun hn => ?_, fun hn => ?_, fun hn => ?_, fun a hn => ?_⟩
  · obtain ⟨hle, ht | hu1⟩ := rank_le_succ_of_movement hin hrst hvalid hstep hu
    · exact hle.trans (Nat.succ_le_succ (h.early ht))
    · exact hu1.trans (Nat.le_add_left 1 n)
  · obtain ⟨hb, hfrom | hfrom⟩ := tableNext_eq_haveLengthHigh (hcols.st.symm.trans hst)
    · have hlow := h.rank_le hfrom (by decide)
      rw [hcols.cnt, if_pos ⟨hfrom, hb⟩]
      simpa using hlow
    · have hcount := h.count hfrom
      rw [hcols.cnt, hfrom, if_neg (by simp), if_pos ⟨rfl, hb⟩]
      omega
  · rw [hcols.cls, if_neg, h.cls (Nat.le_of_succ_le hn)]
    rintro ⟨hst, -⟩
    exact absurd (h.rank_le hst (by decide)) (Nat.not_le_of_lt hn)
  · rw [hcols.id, if_neg, h.id (Nat.le_of_succ_le hn)]
    rintro ⟨hst, -⟩
    exact absurd (h.rank_le hst (by decide)) (Nat.not_le_of_lt hn)
  · refine BitVec.eq_of_toNat_eq ?_
    rw [hcols.len, if_neg, if_neg, h.len (Nat.le_of_succ_le hn)] <;> rintro ⟨hst, -⟩
    · exact absurd (h.rank_le hst (by decide)) (Nat.not_le_of_lt (hn.trans (by decide)))
    · exact absurd (h.rank_le hst (by decide)) (Nat.not_le_of_lt hn)
  · rw [hcols.cells, if_neg, h.cells a (Nat.le_of_succ_le hn)]
    rintro ⟨hst, -, rfl⟩
    have hcount := h.count hst
    omega

theorem Window.step (h : Window s n t) (hno : NoReset (t.inputs.take 1)) (hstep : step t = .next u) :
    Window s (n + 1) u := by
  rcases step_cases t with ⟨-, hs⟩ | ⟨e, rest, hin, ⟨hrst, -⟩ | ⟨hrst, hvalid, -⟩ | ⟨-, -, hs⟩⟩
  · cases hs.symm.trans hstep
    exact h.begin []
  · rw [hno e (by simp [hin])] at hrst
    cases hrst
  · exact h.byte hin hrst hvalid hstep
  · cases hs.symm.trans hstep
    exact h.begin rest

theorem Window.run {m : Nat} (h : Window s n t) (hno : NoReset (t.inputs.take m)) (hrun : runFrom m t = .next u) :
    Window s (n + m) u := by
  induction m generalizing n t with
  | zero =>
    cases hrun
    exact h
  | succ m ih =>
    obtain ⟨v, hstep, hrun⟩ := runFrom_succ_next hrun
    have hfirst : NoReset (t.inputs.take 1) := fun e he =>
      hno e (List.take_subset_take_left _ (Nat.le_add_left 1 m) he)
    have hlater : NoReset (v.inputs.take m) := fun e he => hno e (by
      rw [inputs_of_step hstep] at he
      cases hin : t.inputs with
      | nil => simp [hin] at he
      | cons x xs =>
        rw [hin, List.tail_cons] at he
        exact List.mem_cons_of_mem x he)
    have hwindow := ih (h.step hfirst hstep) hlater hrun
    rwa [Nat.add_assoc, Nat.add_comm 1 m] at hwindow

end Window

/-- Settles O54: the window passes with each step. -/
theorem deliveredValuesStayForTheWindow : Obligations.DeliveredValuesStayForTheWindow := by
  unfold Obligations.DeliveredValuesStayForTheWindow
  intro n s t hst hno hrun
  have hwindow : Window s n t := Nat.zero_add n ▸ (Window.refl hst).run hno hrun
  exact ⟨hwindow.cls, hwindow.id, hwindow.len, hwindow.cells⟩

end Sys2Proof.Machine
end

section
/-! The draw of the six registers is not observed (10_state.md R45): two runs whose states agree on what the sequencer has written
since it was last outside a frame. -/

namespace Sys2Proof.Machine

/-- The two states agree on everything but the registers that the frame in progress has not written yet. -/
structure Agree (s s' : State) : Prop where
  st       : s'.st = s.st
  inputs   : s'.inputs = s.inputs
  out      : s'.out = s.out
  unpacked : s'.unpacked = s.unpacked
  event    : s'.event = s.event
  buf      : s'.buf = s.buf
  sums     : 2 ≤ SeqState.rank s.st → SameSums s s'
  cls      : 3 ≤ SeqState.rank s.st → s'.cls = s.cls
  id       : 4 ≤ SeqState.rank s.st → s'.id = s.id
  len      : 5 ≤ SeqState.rank s.st → s'.len = s.len
  cnt      : 6 ≤ SeqState.rank s.st → s'.cnt = s.cnt

section Agree

variable {s s' t : State} {b : Byte}

theorem Agree.refl (s : State) : Agree s s :=
  ⟨rfl, rfl, rfl, rfl, rfl, rfl, fun _ => ⟨rfl, rfl⟩, fun _ => rfl, fun _ => rfl, fun _ => rfl, fun _ => rfl⟩

theorem Agree.begin (h : Agree s s') (rest : List Edge) : Agree (s.begin rest) (s'.begin rest) :=
  ⟨h.st, rfl, rfl, rfl, rfl, h.buf, h.sums, h.cls, h.id, h.len, h.cnt⟩

/-- Outside a frame the states need not agree on any register. -/
theorem Agree.of_rank_lt_two {t' : State} (ht : SeqState.rank t.st < 2) (hst : t'.st = t.st) (hinputs : t'.inputs = t.inputs)
    (hout : t'.out = t.out) (hunpacked : t'.unpacked = t.unpacked) (hevent : t'.event = t.event) (hbuf : t'.buf = t.buf) :
    Agree t t' :=
  ⟨hst, hinputs, hout, hunpacked, hevent, hbuf, fun h => absurd h (by omega), fun h => absurd h (by omega),
    fun h => absurd h (by omega), fun h => absurd h (by omega), fun h => absurd h (by omega)⟩

/-- Once `len` has been written, the states differ in `cnt` at most. -/
theorem Agree.eq_with_cnt (h : Agree s s') (hr : 5 ≤ SeqState.rank s.st) : s' = { s with cnt := s'.cnt } := by
  obtain ⟨⟨st', cls', id', len', cnt', ckA', ckB', buf'⟩, inputs', out', unpacked', event'⟩ := s'
  obtain ⟨hst, hinputs, hout, hunpacked, hevent, hbuf, hsums, hcls, hid, hlen, -⟩ := h
  obtain ⟨hA, hB⟩ := hsums (by omega)
  cases hst
  cases hinputs
  cases hout
  cases hunpacked
  cases hevent
  cases hbuf
  cases hA
  cases hB
  cases hcls (by omega)
  cases hid (by omega)
  cases hlen hr
  rfl

/-- Once `cnt` has been written too, the states are the same. -/
theorem Agree.eq (h : Agree s s') (hr : 6 ≤ SeqState.rank s.st) : s' = s := by
  rw [h.eq_with_cnt (by omega), h.cnt hr]

/-- LENHI looks at no count. -/
theorem lenhi_with_cnt (c : Config) (b : Byte) (s : State) (n : CntReg) : lenhi c b { s with cnt := n } = lenhi c b s := by
  rw [lenhi, lenhi]
  split_ifs <;> rfl

theorem Agree.ckUpdate_sums (h : Agree s s') (hr : 2 ≤ SeqState.rank s.st) (b : Byte) :
    SameSums (ckUpdate b s) (ckUpdate b s') := by
  obtain ⟨hA, hB⟩ := h.sums hr
  simp [SameSums, hA, hB]

/-- The operation of the chain leaves agreement: it reads no register that the frame has not written. -/
theorem Agree.exec_chainOp (h : Agree s s') (hexec : exec (chainOp Config.hardware s.st b) s = .next t) :
    ∃ t', exec (chainOp Config.hardware s'.st b) s' = .next t' ∧ Agree t t' := by
  rw [h.st]
  rcases chainOp_cases Config.hardware s.st b with ⟨-, hop⟩ | ⟨-, -, hop⟩ | ⟨-, -, hop⟩ <;> rw [hop] at hexec ⊢
  · cases (exec_resync s).symm.trans hexec
    exact ⟨_, exec_resync s', .of_rank_lt_two (by simp) rfl h.inputs h.out h.unpacked (by simp [h.st, h.event]) h.buf⟩
  · cases hexec
    exact ⟨_, exec_sync2 s', rfl, h.inputs, h.out, h.unpacked, h.event, h.buf, fun _ => ⟨rfl, rfl⟩, by simp, by simp,
      by simp, by simp⟩
  · cases hst : s.st with
    | idle =>
      rw [hst] at hexec
      cases hexec
      exact ⟨_, exec_ignoreIdle s', .of_rank_lt_two (by simp [hst]) h.st h.inputs h.out h.unpacked rfl h.buf⟩
    | sawSync1 =>
      rw [hst] at hexec
      cases hexec
      exact ⟨_, exec_ignoreSync1 s', .of_rank_lt_two (by simp [hst]) h.st h.inputs h.out h.unpacked rfl h.buf⟩
    | sawSync2 =>
      rw [hst] at hexec
      cases hexec
      exact ⟨_, exec_cls b s', rfl, h.inputs, h.out, h.unpacked, h.event, h.buf, fun _ => h.ckUpdate_sums (by simp [hst]) b,
        fun _ => rfl, by simp, by simp, by simp⟩
    | haveClass =>
      rw [hst] at hexec
      cases hexec
      exact ⟨_, exec_ident b s', rfl, h.inputs, h.out, h.unpacked, h.event, h.buf,
        fun _ => h.ckUpdate_sums (by simp [hst]) b, fun _ => h.cls (by simp [hst]), fun _ => rfl, by simp, by simp⟩
    | haveId =>
      rw [hst] at hexec
      cases hexec
      exact ⟨_, exec_lenlo b s', rfl, h.inputs, h.out, h.unpacked, h.event, h.buf,
        fun _ => h.ckUpdate_sums (by simp [hst]) b, fun _ => h.cls (by simp [hst]), fun _ => h.id (by simp [hst]),
        fun _ => rfl, by simp⟩
    | haveLengthLow =>
      rw [hst] at hexec
      cases hexec
      refine ⟨_, exec_lenhi b s', ?_⟩
      rw [h.eq_with_cnt (by simp [hst]), lenhi_with_cnt]
      exact .refl _
    | haveLengthHigh | havePayload | haveChecksumA =>
      rw [hst] at hexec
      rw [h.eq (by simp [hst])]
      exact ⟨t, hexec, .refl t⟩

theorem Agree.step (h : Agree s s') (hstep : step s = .next t) : ∃ t', step s' = .next t' ∧ Agree t t' := by
  rcases step_cases s with ⟨hin, hs⟩ | ⟨e, rest, hin, ⟨hrst, hs⟩ | ⟨hrst, hvalid, hs⟩ | ⟨hrst, hvalid, hs⟩⟩
  · cases hs.symm.trans hstep
    exact ⟨_, step_of_no_edge (h.inputs.trans hin), h.begin []⟩
  · cases hs.symm.trans hstep
    exact ⟨_, step_of_reset (h.inputs.trans hin) hrst, .refl _⟩
  · rw [step_of_byte hin hrst hvalid] at hstep
    rw [step_of_byte (h.inputs.trans hin) hrst hvalid]
    exact (h.begin rest).exec_chainOp hstep
  · cases hs.symm.trans hstep
    exact ⟨_, step_of_idle_edge (h.inputs.trans hin) hrst hvalid, h.begin rest⟩

theorem Agree.run {n : Nat} (h : Agree s s') (hrun : runFrom n s = .next t) :
    ∃ t', runFrom n s' = .next t' ∧ Agree t t' := by
  induction n generalizing s s' with
  | zero =>
    cases hrun
    exact ⟨s', rfl, h⟩
  | succ n ih =>
    obtain ⟨u, hstep, hrun⟩ := runFrom_succ_next hrun
    obtain ⟨u', hstep', hu⟩ := h.step hstep
    obtain ⟨t', hrun', ht⟩ := ih hu hrun
    exact ⟨t', (runFrom_succ_of_next hstep').trans hrun', ht⟩

end Agree

/-- Settles O55: the two resets agree, since neither is in a frame, and agreement shows on everything observable. -/
theorem registerDrawIsNeverObserved : Obligations.RegisterDrawIsNeverObserved := by
  unfold Obligations.RegisterDrawIsNeverObserved
  intro d d' es n t hcells hrun
  have hstart : Agree (State.resetWith Config.hardware d es) (State.resetWith Config.hardware d' es) :=
    .of_rank_lt_two (by simp) rfl rfl rfl rfl rfl (by simp [hcells])
  obtain ⟨t', hrun', ht⟩ := hstart.run hrun
  exact ⟨t', hrun', ht.st, ht.out, ht.event, ht.unpacked, fun a => by rw [ht.buf]⟩

end Sys2Proof.Machine
end

section
/-! A whole frame from any state (40_sync.md R116): the header, the payload byte by byte, and the two checksum bytes, which deliver a
clean frame and reject one with a corrupted payload byte. -/

namespace Sys2Proof.Machine

/-! ## The bytes of a frame -/

/-- The bytes before the payload that the checksum covers, for a payload of `n` bytes (30_encoding.md R81). -/
def headerBytes (cls id : Byte) (n : Nat) : List Byte := [cls, id, BitVec.ofNat 8 n, BitVec.ofNat 8 (n / 256)]

theorem coveredBytes_eq (cls id : Byte) (p : List Byte) : coveredBytes cls id p = headerBytes cls id p.length ++ p := rfl

theorem edgesOf_wireFrame (cls id : Byte) (p : List Byte) (ck : Byte × Byte) :
    edgesOf (wireFrame cls id p ck) =
      edgesOf [0xB5, 0x62] ++ (edgesOf (headerBytes cls id p.length) ++ (edgesOf p ++ edgesOf [ck.1, ck.2])) := by
  simp [wireFrame, coveredBytes, headerBytes]

/-- No byte of a clean frame after the two sync bytes is the first sync byte. -/
theorem CleanFrame.ne_sync1 {cls id : Byte} {p : List Byte} (h : CleanFrame cls id p) :
    (∀ b ∈ coveredBytes cls id p, b ≠ 0xB5) ∧ (ckSum (coveredBytes cls id p)).1 ≠ 0xB5 ∧
      (ckSum (coveredBytes cls id p)).2 ≠ 0xB5 := by
  obtain ⟨-, hbody⟩ := h
  rw [show (frameBytes cls id p).drop 2 = coveredBytes cls id p ++
    [(ckSum (coveredBytes cls id p)).1, (ckSum (coveredBytes cls id p)).2] from rfl, List.forall_mem_append] at hbody
  obtain ⟨hcovered, hck⟩ := hbody
  exact ⟨hcovered, hck _ (by simp), hck _ (by simp)⟩

/-- The two bytes of a length give it back. -/
theorem lenNext_lenLow_toNat {n : Nat} (h : n ≤ 1000) :
    (lenNext (BitVec.ofNat 8 (n / 256)) (lenLow (BitVec.ofNat 8 n))).toNat = n := by
  rw [lenNext_toNat, lenLow_toNat, BitVec.toNat_ofNat, BitVec.toNat_ofNat]
  omega

/-! ## The sums of the frame in progress -/

/-- Every step keeps the invariant of the frame in progress; a reset ends the frame. -/
theorem FrameInv.step {s t : State} (h : FrameInv s) (hstep : step s = .next t) : FrameInv t := by
  rcases step_cases s with ⟨-, hs⟩ | ⟨e, rest, hin, ⟨-, hs⟩ | ⟨hrst, hvalid, -⟩ | ⟨-, -, hs⟩⟩
  · cases hs.symm.trans hstep
    exact h
  · cases hs.symm.trans hstep
    exact frameInv_of_not_inFrame (.inl rfl)
  · rw [step_of_byte hin hrst hvalid] at hstep
    exact FrameInv.exec_chainOp (s := s.begin rest) h hstep
  · cases hs.symm.trans hstep
    exact h

theorem FrameInv.run {n : Nat} {s t : State} (h : FrameInv s) (hrun : runFrom n s = .next t) : FrameInv t := by
  induction n generalizing s with
  | zero =>
    cases hrun
    exact h
  | succ n ih =>
    obtain ⟨u, hstep, hrun⟩ := runFrom_succ_next hrun
    exact ih (h.step hstep) hrun

/-! ## The header and the payload -/

/-- In a frame, a byte other than the first sync byte is taken by the state's own operation. -/
theorem step_of_frame_byte {s : State} {b : Byte} {rest : List Edge} (hin : s.inputs = Edge.ofByte b :: rest)
    {k : SeqState} (hst : s.st = k) (hk : SeqState.inFrame k = true) (hb : b ≠ 0xB5) :
    step s = exec (k.rowOp.instr b) (s.begin rest) := by
  rw [step_of_byte hin rfl rfl, (chainOp_eq_rowOp_instr hk).2 ⟨hst, hb, rfl⟩]
  rfl

/-- The header of a frame with a payload of `n` bytes has been taken, and of the payload the bytes `done`. -/
structure Received (cls id : Byte) (n : Nat) (done : List Byte) (t : State) : Prop where
  st    : t.st = if done.length = n then .havePayload else .haveLengthHigh
  cls   : t.cls = cls
  id    : t.id = id
  len   : t.len.toNat = n
  cnt   : t.cnt.toNat = done.length
  cells : (List.range done.length).map (Memory.cell t.buf) = done

/-- LENHI of a length that fits leaves the header received. -/
theorem received_lenhi {s : State} {hi : Byte} (hfit : (lenNext hi s.len).toNat ≤ 1000) :
    Received s.cls s.id (lenNext hi s.len).toNat [] (lenhi Config.hardware hi s) ∧
      (lenhi Config.hardware hi s).out = s.out ∧ (lenhi Config.hardware hi s).inputs = s.inputs := by
  have hzero : lenNext hi s.len = 0 ↔ 0 = (lenNext hi s.len).toNat :=
    BitVec.toNat_inj.symm.trans ⟨Eq.symm, Eq.symm⟩
  rcases lenhi_cases Config.hardware hi s with ⟨hover, -⟩ | ⟨-, hlen, heq⟩ | ⟨-, hlen, heq⟩
  · exact absurd hover (Nat.not_lt_of_le hfit)
  · rw [heq]
    exact ⟨⟨(if_pos (hzero.1 hlen)).symm, rfl, rfl, rfl, rfl, rfl⟩, rfl, rfl⟩
  · rw [heq]
    exact ⟨⟨(if_neg (mt hzero.2 hlen)).symm, rfl, rfl, rfl, rfl, rfl⟩, rfl, rfl⟩

/-- The four bytes of a header, from `SawSync2`. -/
theorem silentRun_of_header {s : State} {cls id : Byte} {n : Nat} {rest : List Edge} (hst : s.st = .sawSync2) (hn : n ≤ 1000)
    (hsync : ∀ b ∈ headerBytes cls id n, b ≠ 0xB5) (hin : s.inputs = edgesOf (headerBytes cls id n) ++ rest) :
    ∃ t, SilentRun 4 s t ∧ Received cls id n [] t ∧ t.inputs = rest := by
  simp only [headerBytes, List.forall_mem_cons] at hsync
  obtain ⟨hcls, hid, hlow, hhigh, -⟩ := hsync
  obtain ⟨u, hu, hin, hst, hout, hucls⟩ : ∃ u, step s = .next u ∧
      u.inputs = edgesOf [id, BitVec.ofNat 8 n, BitVec.ofNat 8 (n / 256)] ++ rest ∧ u.st = .haveClass ∧ u.out = .none ∧
      u.cls = cls := ⟨_, step_of_frame_byte hin hst rfl hcls, rfl, rfl, rfl, rfl⟩
  obtain ⟨v, hv, hin, hst, hvout, hvcls, hvid⟩ : ∃ v, step u = .next v ∧
      v.inputs = edgesOf [BitVec.ofNat 8 n, BitVec.ofNat 8 (n / 256)] ++ rest ∧ v.st = .haveId ∧ v.out = .none ∧
      v.cls = u.cls ∧ v.id = id := ⟨_, step_of_frame_byte hin hst rfl hid, rfl, rfl, rfl, rfl, rfl⟩
  obtain ⟨w, hw, hin, hst, hwout, hwcls, hwid, hwlen⟩ : ∃ w, step v = .next w ∧
      w.inputs = edgesOf [BitVec.ofNat 8 (n / 256)] ++ rest ∧ w.st = .haveLengthLow ∧ w.out = .none ∧ w.cls = v.cls ∧
      w.id = v.id ∧ w.len = lenLow (BitVec.ofNat 8 n) := ⟨_, step_of_frame_byte hin hst rfl hlow, rfl, rfl, rfl, rfl, rfl, rfl⟩
  have hlen : (lenNext (BitVec.ofNat 8 (n / 256)) w.len).toNat = n := hwlen ▸ lenNext_lenLow_toNat hn
  obtain ⟨hreceived, hlast, hrest⟩ := received_lenhi (s := w.begin rest) (hlen.trans_le hn)
  simp only [State.begin_cls, State.begin_id, State.begin_len, hwcls, hvcls, hucls, hwid, hvid, hlen] at hreceived
  exact ⟨_, .step hu hout (.step hv hvout (.step hw hwout
    (.step (step_of_frame_byte hin hst rfl hhigh) hlast (.refl _)))), hreceived, hrest⟩

/-- One more payload byte. -/
theorem Received.step {cls id b : Byte} {n : Nat} {done : List Byte} {t : State} {rest : List Edge}
    (h : Received cls id n done t) (hlt : done.length < n) (hn : n ≤ 1000) (hb : b ≠ 0xB5)
    (hin : t.inputs = Edge.ofByte b :: rest) :
    ∃ u, step t = .next u ∧ u.out = .none ∧ u.inputs = rest ∧ Received cls id n (done ++ [b]) u := by
  have hst : t.st = .haveLengthHigh := h.st.trans (if_neg hlt.ne)
  have hcnt : t.cnt.toNat < 1000 := h.cnt ▸ hlt.trans_le hn
  refine ⟨_, (step_of_frame_byte hin hst rfl hb).trans (payload_next Config.hardware b (t.begin rest) hcnt), rfl, rfl, ?_⟩
  have hlast : t.cnt + 1 = t.len ↔ (done ++ [b]).length = n := by
    rw [List.length_append, List.length_singleton, ← h.cnt, ← h.len]
    exact cnt_succ_eq_iff hcnt
  refine ⟨if_congr hlast rfl rfl, h.cls, h.id, h.len, ?_, ?_⟩
  · rw [List.length_append, List.length_singleton, ← h.cnt]
    exact cnt_succ_toNat hcnt
  · rw [List.length_append, List.length_singleton]
    simp only [State.begin_cnt, State.begin_buf, h.cnt, map_cell_store_range_succ, h.cells]

/-- The payload bytes still to come, from any point of the payload. -/
theorem Received.run {cls id : Byte} {n : Nat} {done q : List Byte} {t : State} {rest : List Edge}
    (h : Received cls id n done t) (hlen : done.length + q.length = n) (hn : n ≤ 1000) (hq : ∀ b ∈ q, b ≠ 0xB5)
    (hin : t.inputs = edgesOf q ++ rest) :
    ∃ u, SilentRun q.length t u ∧ Received cls id n (done ++ q) u ∧ u.inputs = rest := by
  induction q generalizing done t with
  | nil => exact ⟨t, .refl t, by rwa [List.append_nil], hin⟩
  | cons b q ih =>
    obtain ⟨hb, hq⟩ := List.forall_mem_cons.1 hq
    rw [List.length_cons] at hlen
    obtain ⟨v, hstep, hout, hinputs, hv⟩ := h.step (by omega) hn hb hin
    obtain ⟨u, hrun, hu, hrest⟩ := ih hv (by simp; omega) hq hinputs
    exact ⟨u, .step hstep hout hrun, by rwa [List.append_assoc] at hu, hrest⟩

/-- When all of the payload has been received, the bytes taken are those of the frame that its checksum covers. -/
theorem Received.covered_eq {cls id : Byte} {p : List Byte} {t : State} (h : Received cls id p.length p t)
    (hst : t.st = .havePayload) : covered t = coveredBytes cls id p := by
  rw [covered_of_six_le_rank (by simp [hst]), h.cls, h.id, h.cnt, h.cells, ← ofNat_toNat_low, ← ofNat_toNat_high, h.len]
  rfl

/-- From any state, the sync bytes, a header and its payload put out nothing and leave `HavePayload` with the checksum of the
bytes it covers. -/
theorem silentRun_of_wireFrame {s : State} {cls id : Byte} {p : List Byte} {ck : Byte × Byte} {rest : List Edge}
    (hfit : p.length ≤ 1000) (hsync : ∀ b ∈ coveredBytes cls id p, b ≠ 0xB5)
    (hin : s.inputs = edgesOf (wireFrame cls id p ck) ++ rest) :
    ∃ t, SilentRun (p.length + 6) s t ∧ t.st = .havePayload ∧ Received cls id p.length p t ∧
      (t.ckA, t.ckB) = ckSum (coveredBytes cls id p) ∧
      t.inputs = Edge.ofByte ck.1 :: Edge.ofByte ck.2 :: rest := by
  rw [edgesOf_wireFrame, List.append_assoc] at hin
  rw [coveredBytes_eq, List.forall_mem_append] at hsync
  obtain ⟨hheader, hpayload⟩ := hsync
  obtain ⟨u, hsyncs, hst, hA, hB, hin⟩ := silentRun_of_syncs hin
  rw [List.append_assoc] at hin
  obtain ⟨v, hhead, hv, hin⟩ := silentRun_of_header hst hfit hheader hin
  rw [List.append_assoc] at hin
  obtain ⟨t, hbody, ht, hin⟩ := hv.run (Nat.zero_add _) hfit hpayload hin
  have hstart : FrameInv u := by simp [FrameInv, covered, hst, hA, hB]
  have htst : t.st = .havePayload := ht.st.trans (if_pos rfl)
  have hsums := (hstart.run (hhead.trans hbody).run).1 (by rw [htst]; rfl)
  refine ⟨t, ?_, htst, ht, hsums.trans (congrArg ckSum (ht.covered_eq htst)), hin⟩
  rw [show p.length + 6 = 2 + (4 + p.length) by omega]
  exact hsyncs.trans (hhead.trans hbody)

/-! ## The two checksum bytes -/

theorem step_of_cka_match {s : State} {b : Byte} {rest : List Edge} (hst : s.st = .havePayload) (hb : b ≠ 0xB5)
    (hck : b = s.ckA) (hin : s.inputs = Edge.ofByte b :: rest) :
    step s = .next { s.begin rest with st := .haveChecksumA } := by
  rw [step_of_frame_byte hin hst rfl hb]
  exact (exec_cka b (s.begin rest)).trans (by rw [if_pos (show b = (s.begin rest).ckA from hck)])

theorem step_of_cka_mismatch {s : State} {b : Byte} {rest : List Edge} (hst : s.st = .havePayload) (hb : b ≠ 0xB5)
    (hck : b ≠ s.ckA) (hin : s.inputs = Edge.ofByte b :: rest) :
    step s = .next { s.begin rest with st := .idle, event := .ckaMismatch } := by
  rw [step_of_frame_byte hin hst rfl hb]
  exact (exec_cka b (s.begin rest)).trans (by rw [if_neg (show ¬ b = (s.begin rest).ckA from hck)])

theorem step_of_ckb_match {s : State} {b : Byte} {rest : List Edge} (hst : s.st = .haveChecksumA) (hb : b ≠ 0xB5)
    (hck : b = s.ckB) (hin : s.inputs = Edge.ofByte b :: rest) :
    step s = .next (delivered Config.hardware (s.begin rest)) := by
  rw [step_of_frame_byte hin hst rfl hb, hck]
  exact (exec_ckb s.ckB (s.begin rest)).trans (congrArg _ (ckb_match Config.hardware (s.begin rest)))

/-- In `Idle` any byte but the first sync byte is ignored. -/
theorem step_of_other_in_idle {s : State} {b : Byte} {rest : List Edge} (hst : s.st = .idle) (hb : b ≠ 0xB5)
    (hin : s.inputs = Edge.ofByte b :: rest) : step s = .next (ignoreByte (s.begin rest)) := by
  rw [step_of_byte hin rfl rfl, hst,
    show chainOp Config.hardware .idle (Edge.ofByte b).inByte = .ignoreIdle from chainOp_eq_ignoreIdle.2 ⟨rfl, hb⟩]
  rfl

/-! ## Delivery -/

/-- The bytes of a payload, listed in order, name themselves. -/
theorem lastNamed_mapIdx {p : List Byte} {a : Nat} (ha : a < p.length) :
    some (lastNamed (p.mapIdx fun i b => (i, b)) a) = p[a]? := by
  induction p using List.reverseRecOn with
  | nil => cases ha
  | append_singleton p b ih =>
    rw [List.mapIdx_concat, lastNamed_append_singleton]
    by_cases hlast : a = p.length
    · rw [if_pos hlast, hlast, List.getElem?_concat_length]
    · rw [List.length_append, List.length_singleton] at ha
      have hlt : a < p.length := by omega
      rw [if_neg hlast, ih hlt, List.getElem?_append_left hlt]

/-- The cells of a received payload are its bytes. -/
theorem Received.cell {cls id : Byte} {n : Nat} {done : List Byte} {t : State} (h : Received cls id n done t) {a : Nat}
    (ha : a < done.length) : some (Memory.cell t.buf a) = done[a]? := by
  conv_rhs => rw [← h.cells]
  simp [ha]

/-- Settles O48: after the payload the accumulators hold the checksum of the frame, so its two checksum bytes match, and the
record is made of what was received. -/
theorem everyCleanFrameIsDelivered : Obligations.EveryCleanFrameIsDelivered := by
  unfold Obligations.EveryCleanFrameIsDelivered
  intro s cls id p rest hclean hin
  obtain ⟨hcovered, hsyncA, hsyncB⟩ := hclean.ne_sync1
  obtain ⟨t, hrun, hst, ht, hsums, hin⟩ := silentRun_of_wireFrame hclean.1 hcovered hin
  have hA : (ckSum (coveredBytes cls id p)).1 = t.ckA := congrArg Prod.fst hsums.symm
  have hB : (ckSum (coveredBytes cls id p)).2 = t.ckB := congrArg Prod.snd hsums.symm
  have hcka := step_of_cka_match hst hsyncA hA hin
  have hckb := step_of_ckb_match (s := { t.begin _ with st := .haveChecksumA }) rfl hsyncB hB (rest := rest) rfl
  have hsilent : SilentRun (p.length + 7) s _ := hrun.trans (.step hcka rfl (.refl _))
  have hpayload : recordBytes Config.hardware t.buf t.len.toNat = p := by
    rw [ht.len, recordBytes_of_le t.buf hclean.1, ht.cells]
  have hkind : kindOf t.id = kindOf id := congrArg kindOf ht.id
  refine ⟨hsilent.silent, _, frameRecord (recordBytes Config.hardware t.buf t.len.toNat) t,
    runFrom_add (m := p.length + 7) hsilent.run (runFrom_one hckb), rfl, rfl, rfl, ht.cls, ht.id, ht.len, hpayload, hkind, fun hneed => ?_⟩
  have hcells : ∀ a, a < Config.need (kindOf id) →
      Memory.cell t.buf a = Memory.cell (Memory.ofCells 1000 (p.mapIdx fun i b => (i, b))) a := by
    intro a ha
    have hlt : a < p.length := ha.trans_le hneed
    refine Option.some.inj ((ht.cell hlt).trans ?_)
    rw [Memory.cell_ofCells (hlt.trans_le hclean.1), lastNamed_mapIdx hlt]
  exact (congrArg (fieldsOf · t.buf) hkind).trans (fieldsOf_congr hcells)

/-- Settles O51: the corrupted byte alters the first sum, so CKA does not match and ends the frame, and the second checksum byte
comes in `Idle`. -/
theorem oneCorruptedPayloadByteIsRejected : Obligations.OneCorruptedPayloadByteIsRejected := by
  unfold Obligations.OneCorruptedPayloadByteIsRejected
  intro s cls id x y p q rest hclean hxy hy hin
  obtain ⟨hcovered, hsyncA, hsyncB⟩ := hclean.ne_sync1
  have hlength : (p ++ y :: q).length = (p ++ x :: q).length := by simp
  have hsplit (z : Byte) : coveredBytes cls id (p ++ z :: q) =
      (headerBytes cls id (p ++ x :: q).length ++ p) ++ z :: q := by
    rw [coveredBytes_eq, List.append_assoc]
    simp
  have hcorrupted : ∀ b ∈ coveredBytes cls id (p ++ y :: q), b ≠ 0xB5 := by
    rw [hsplit, List.forall_mem_append, List.forall_mem_cons] at hcovered ⊢
    exact ⟨hcovered.1, hy, hcovered.2.2⟩
  obtain ⟨t, hrun, hst, ht, hsums, hin⟩ := silentRun_of_wireFrame (hlength.trans_le hclean.1) hcorrupted hin
  have hA : (ckSum (coveredBytes cls id (p ++ x :: q))).1 ≠ t.ckA := by
    rw [show t.ckA = (ckSum (coveredBytes cls id (p ++ y :: q))).1 from congrArg Prod.fst hsums, hsplit x, hsplit y]
    exact ckSum_fst_ne_of_ne _ q hxy
  have hcka := step_of_cka_mismatch hst hsyncA hA hin
  have hckb := step_of_other_in_idle (s := { t.begin _ with st := .idle, event := .ckaMismatch }) rfl hsyncB (rest := rest)
    rfl
  have hsilent : SilentRun ((p ++ x :: q).length + 8) s _ :=
    hlength ▸ hrun.trans (.step hcka rfl (.step hckb rfl (.refl _)))
  exact ⟨hsilent.silent, _, hsilent.run, rfl, rfl⟩

end Sys2Proof.Machine
end
